-- ==== Sys2Proof/Word.lean ====
section
/-! DEFINITION. The plain word types: a byte of the buffer or the wire, a signed 16-bit operand
(spec/00_scope.md R9, spec/30_encoding.md R81). -/

namespace Sys2Proof

/-- A byte, 0x00 to 0xFF (R9). Bit `p` has weight `2^p` (R8). -/
abbrev Byte := BitVec 8

/-- The operand type `s16` of a request (R81): 16 bits read as a signed integer by `BitVec.toInt`. -/
abbrev S16 := BitVec 16

end Sys2Proof
end

