-- ==== Sys2Proof/Machine/Bits.lean ====
section
/-! DEFINITION. The bit-packing utilities of spec/40_bit_utilities.md: pure functions, no state. -/

namespace Sys2Proof.Machine

/-- SETBIT (R110). The position is 0 to 7, so a call outside that range cannot be formed (R113). -/
def setBit (b : Byte) (p : Fin 8) : Byte := b ||| (1#8 <<< p.val)

/-- CLRBIT (R111). -/
def clrBit (b : Byte) (p : Fin 8) : Byte := b &&& ~~~(1#8 <<< p.val)

/-- TSTBIT (R112), the result 1 as true. -/
def tstBit (b : Byte) (p : Fin 8) : Bool := (b >>> p.val) &&& 1#8 == 1#8

/-- BFLEN (R114), for `n ≥ 1`. -/
def bflen (n : Nat) : Nat := 1 + (n - 1) / 8

/-- STRIDE (R116), for `w ≥ 1`. -/
def stride (w : Nat) : Nat := (w + 15) / 16 * 2

end Sys2Proof.Machine
end

