-- ==== Sys2Proof/Config.lean ====
section
/-! DEFINITION. What an implementation fixes (spec/00_scope.md R7) and the free values
(spec/93_implementation_defined.md I4 to I8). Every OPEN parameter is an opaque constant: nothing can
be proved of its value beyond its range. -/

namespace Sys2Proof

/-- The order in which the transport puts a byte's bits on the line (R7, R53). -/
inductive BitOrder where
  | lsbFirst
  | msbFirst
deriving DecidableEq, Repr, Inhabited

/-- The transport's error value: opaque to the block, copied verbatim (R251). It is never inspected, so
any countable type serves (DESIGN CHOICE, log 10, safe). -/
abbrev TransportError := Nat

/-- What the transport does with one `Xfer` (R266, R262): it answers `OK`, or `ERR(e)` after some number
of the call's bytes reached the panel (a number past the end means all of them). -/
inductive Answer where
  | ok
  | err (e : TransportError) (reached : Nat)
deriving DecidableEq, Repr, Inhabited

namespace Config

/-- `MAX_HEIGHT` (R7; the spec's own decision D5). -/
def maxHeight : Nat := 2047

/-- The OPEN parameter behind `MAX_WIDTH` (R7, D6), as a value below 32767. Safe (log 7). -/
opaque maxWidthIndex : Fin 32767

/-- `MAX_WIDTH`: an OPEN parameter with `1 ≤ MAX_WIDTH ≤ 32767` (R7, D6). -/
def maxWidth : Nat := maxWidthIndex.val + 1

/-- `WIRE_BIT_ORDER`: OPEN (R7, R53, D12). No meaning reads it. Safe (log 8). -/
opaque wireBitOrder : BitOrder

/-- `CS_ACTIVE_LEVEL`: OPEN (R7, D13); true is the high level. No meaning reads it. Safe (log 8). -/
opaque csActiveLevel : Bool

/-- The free value: what the transport answers at the `n`-th call that the input list of State does not
answer (R262, R266: "a draw", "any value"). Safe (log 9). -/
opaque transportAnswer : Nat → Answer

end Config

end Sys2Proof
end

