-- ==== Sys2Proof/Syntax.lean ====
section
/-! DEFINITION. The instructions: one constructor for each row of spec/opcode_table.json. The first ten are the
requests of spec/30_encoding.md R81, the last four the wire units of R86 to R89. -/

namespace Sys2Proof

inductive Instr where
  /-- CONFIGURE (R131). -/
  | configure (width height : S16) (diff : Bool)
  /-- SET_PIXEL (R136); `black` true asks for black (R81). -/
  | setPixel (x y : S16) (black : Bool)
  /-- CLEAR_BUFFER (R143). -/
  | clearBuffer
  /-- RENDER (R195). -/
  | render
  /-- HOLD (R202). -/
  | hold
  /-- CLEAR_DISPLAY (R206). -/
  | clearDisplay
  /-- CLEAR (R210). -/
  | clear
  /-- SIZE (R150). -/
  | size
  /-- IS_ROW_DIRTY (R170). -/
  | isRowDirty (row : S16)
  /-- IS_ANY_DIRTY (R172). -/
  | isAnyDirty
  /-- WIRE_WRITE_LINE (R86, R90): the fields `RHI`, `VCOM` and the low byte of the row index. -/
  | wireWriteLine (rhi : BitVec 5) (vcom : Bool) (rlo : Byte)
  /-- WIRE_HOLD (R88). -/
  | wireHold (vcom : Bool)
  /-- WIRE_CLEAR (R89). -/
  | wireClear (vcom : Bool)
  /-- WIRE_TRAILER (R87). -/
  | wireTrailer
deriving DecidableEq, Repr

/-- The row index a header's fields stand for: `r = RHI * 256 + RLO` (R91). -/
def rowIndexOf (rhi : BitVec 5) (rlo : Byte) : Nat := rhi.toNat * 256 + rlo.toNat

end Sys2Proof
end

