-- ==== Sys2Proof/WellFormed.lean ====
section
/-! DEFINITION. Which instructions are well formed. A request's operands are bounded by their types (spec/30_encoding.md
R81, R82: "an operand outside its type's range cannot be written down"), so only the write-line header has anything to
check: R94 lists the headers the block never emits whatever the display's height. -/

namespace Sys2Proof

/-- The header's row index is never 0 (R91: "the value 0 is never sent as a row index"). -/
def rowIndexNonzero (rhi : BitVec 5) (rlo : Byte) : Bool := rowIndexOf rhi rlo != 0

/-- The header's `RHI` is at most 7 (R90, R94). -/
def rhiAdmitted (rhi : BitVec 5) : Bool := decide (rhi.toNat ≤ 7)

def Instr.wf : Instr → Bool
  | .configure _ _ _ => true
  | .setPixel _ _ _ => true
  | .clearBuffer => true
  | .render => true
  | .hold => true
  | .clearDisplay => true
  | .clear => true
  | .size => true
  | .isRowDirty _ => true
  | .isAnyDirty => true
  | .wireWriteLine rhi _ rlo => rowIndexNonzero rhi rlo && rhiAdmitted rhi
  | .wireHold _ => true
  | .wireClear _ => true
  | .wireTrailer => true

end Sys2Proof
end

