-- ==== Sys2Proof/Decode.lean ====
section
/-! DEFINITION. Decoding and encoding (spec/30_encoding.md). The request port's record has a 4-bit `OP` and the operands
of R81; only `OP` = bits 3:0 is the spec's, the operands' places are the model's (DESIGN CHOICE, log 1). The wire units
are the spec's byte for byte (R86 to R90). -/

namespace Sys2Proof

/-- Where a wire unit stands in its select window. R93: a hold frame and a trailer can be the same two bytes, and
"position tells them apart". -/
inductive UnitPlace where
  /-- The unit is the first of its transaction. -/
  | opensWindow
  /-- The unit follows a row data block. -/
  | afterRow
deriving DecidableEq, Repr

/-- What is put before the decoder: a request record, or a wire unit's two bytes (byte 0 is sent first) with its place. -/
inductive Code where
  | request (record : BitVec 37)
  | unit (place : UnitPlace) (b0 b1 : Byte)
deriving DecidableEq, Repr

/-- Why the decoder rejects. -/
inductive Reject where
  /-- `OP` is 0x0 or 0xB to 0xF (R82). -/
  | unassignedOp (op : BitVec 4)
  /-- The two bytes are no unit of R86 to R89 at that place (R94). -/
  | notAWireUnit (b0 b1 : Byte)
deriving DecidableEq, Repr

/-- A request record: `OP` in bits 3:0, then the operands in the order R81 lists them: the first `s16` in bits 19:4, the
second in bits 35:20, the `bit` in bit 36. An operation without an operand leaves its place 0 (log 1). -/
def record (op : BitVec 4) (a b : S16) (c : Bool) : BitVec 37 :=
  BitVec.ofBool c ++ b ++ a ++ op

def recordOp (r : BitVec 37) : BitVec 4 := r.extractLsb' 0 4
def recordFst (r : BitVec 37) : S16 := r.extractLsb' 4 16
def recordSnd (r : BitVec 37) : S16 := r.extractLsb' 20 16
def recordBit (r : BitVec 37) : Bool := r.getLsbD 36

/-- R81's opcode assignment and R82's unassigned values. Bits outside an operation's operands are not looked at: the
table's mask is 0xF (log 1). -/
def decodeRequest (r : BitVec 37) : Except Reject Instr :=
  match (recordOp r).toNat with
  | 0x1 => .ok (.configure (recordFst r) (recordSnd r) (recordBit r))
  | 0x2 => .ok (.setPixel (recordFst r) (recordSnd r) (recordBit r))
  | 0x3 => .ok .clearBuffer
  | 0x4 => .ok .render
  | 0x5 => .ok .hold
  | 0x6 => .ok .clearDisplay
  | 0x7 => .ok .clear
  | 0x8 => .ok .size
  | 0x9 => .ok (.isRowDirty (recordFst r))
  | 0xA => .ok .isAnyDirty
  | _ => .error (.unassignedOp (recordOp r))

/-- R90's fields of the first byte: `WR` is bit 0, `VCOM` bit 1, `CLR` bit 2, `RHI` bits 7:3. R92's order of tests: bit 0
says a header, then bit 2 a clear frame, else a hold frame, all other bits being 0. After a row only a header or the
trailer follows (R92). -/
def decodeUnit (place : UnitPlace) (b0 b1 : Byte) : Except Reject Instr :=
  let wr := b0.getLsbD 0
  let vcom := b0.getLsbD 1
  let clr := b0.getLsbD 2
  let rhi : BitVec 5 := b0.extractLsb' 3 5
  if wr then
    if clr then .error (.notAWireUnit b0 b1) else .ok (.wireWriteLine rhi vcom b1)
  else if rhi = 0#5 ∧ b1 = 0#8 then
    match place with
    | .opensWindow => .ok (if clr then .wireClear vcom else .wireHold vcom)
    | .afterRow => if clr || vcom then .error (.notAWireUnit b0 b1) else .ok .wireTrailer
  else .error (.notAWireUnit b0 b1)

def decode : Code → Except Reject Instr
  | .request r => decodeRequest r
  | .unit place b0 b1 => decodeUnit place b0 b1

/-- The first byte of a wire unit from its fields (R90), most significant field first. -/
def unitByte0 (rhi : BitVec 5) (clr vcom wr : Bool) : Byte :=
  rhi ++ BitVec.ofBool clr ++ BitVec.ofBool vcom ++ BitVec.ofBool wr

/-- The code of an instruction: R81 for the requests, R86 to R90 for the wire units. -/
def encode : Instr → Code
  | .configure w h d => .request (record 0x1#4 w h d)
  | .setPixel x y b => .request (record 0x2#4 x y b)
  | .clearBuffer => .request (record 0x3#4 0 0 false)
  | .render => .request (record 0x4#4 0 0 false)
  | .hold => .request (record 0x5#4 0 0 false)
  | .clearDisplay => .request (record 0x6#4 0 0 false)
  | .clear => .request (record 0x7#4 0 0 false)
  | .size => .request (record 0x8#4 0 0 false)
  | .isRowDirty row => .request (record 0x9#4 row 0 false)
  | .isAnyDirty => .request (record 0xA#4 0 0 false)
  | .wireWriteLine rhi vcom rlo => .unit .opensWindow (unitByte0 rhi false vcom true) rlo
  | .wireHold vcom => .unit .opensWindow (unitByte0 0 false vcom false) 0
  | .wireClear vcom => .unit .opensWindow (unitByte0 0 true vcom false) 0
  | .wireTrailer => .unit .afterRow (unitByte0 0 false false false) 0

/-- A word as spec/opcode_table.json numbers it. A row of 16 bits is a wire unit, "byte0<<8 | byte1, byte 0 sent first", taken
as the first unit of its window; any other length is a request record (log 1, log 4). -/
def tableCode (nbits w : Nat) : Code :=
  if nbits = 16 then .unit .opensWindow (BitVec.ofNat 8 (w / 256)) (BitVec.ofNat 8 w)
  else .request (BitVec.ofNat 37 w)

/-- The instruction the decoder reads from a word of the table. -/
def decodeTableWord (nbits w : Nat) : Option Instr :=
  match decode (tableCode nbits w) with
  | .ok i => some i
  | .error _ => none

end Sys2Proof
end

