-- ==== Sys2Proof/Machine/State.lean ====
section
/-! DEFINITION. The state of the block, as plain data (spec/10_state.md R20 to R35), with the events, responses and
host moves it lists, and the state at power-on (spec/70_reset_and_hazards.md R280). -/

namespace Sys2Proof.Machine

/-- The fault kinds of R256: raising one sets `FAULT`, and a state whose `FAULT` is set takes no further step. -/
inductive Fault where
  /-- Raised by every operation but CONFIGURE while `CFG = 0` (R257). Safe: the spec gives no effect and names this fault. -/
  | notConfigured
  /-- Raised by the port when a request's `OP` is unassigned (R258). Safe: as the spec says. -/
  | illegalOp
  /-- Raised by the port when a request arrives before the one before it has completed (R259), or when another thread drives
  the pin or the transport during a transaction (R294; log 13, log 23). Safe: as the spec says. -/
  | concurrentAccess
deriving DecidableEq, Repr

/-- Why the model gives no meaning. -/
inductive Refusal where
  /-- An instruction without a meaning in exec. Raised by exec's arms only; safe. -/
  | notModelled (mnemonic : String)
  /-- Two bytes that are no wire unit at their place: the block never emits them (R94). Raised by the step; safe. -/
  | notAWireUnit
  /-- A write-line unit whose row index is no row of the display, never emitted (R91, R94): there are no row bytes to
  send. Raised by WIRE_WRITE_LINE; safe (log 6). -/
  | rowNotOnDisplay
deriving DecidableEq, Repr

/-- What `Xfer` returns (R11). -/
inductive XferResult where
  | ok
  | err (e : TransportError)
deriving DecidableEq, Repr

/-- The events of the bus log (R31). -/
inductive Event where
  | sel
  | desel
  | tx (bs : List Byte) (r : XferResult)
  /-- The caller's own deselect between requests (R266). -/
  | hdesel
deriving DecidableEq, Repr

/-- A response's status (R250). -/
inductive Status where
  | ok
  | errTransport (e : TransportError)
  | errConfig
  | errRange
deriving DecidableEq, Repr

/-- A response's result value (R81, R83). -/
inductive Value where
  | size (width height : Nat)
  | bit (b : Bool)
deriving DecidableEq, Repr

/-- A response `(status, value)` (R83). -/
structure Response where
  status : Status
  value  : Option Value
deriving DecidableEq, Repr

/-- The two capabilities the block is given (R265). -/
inductive Collaborator where
  | pin
  | transport
deriving DecidableEq, Repr

/-- What the host does, in order: the caller's liberties of R266, and the breaches of its duties that R259 and R294 name
(log 2, log 13, log 23). -/
inductive Move where
  /-- The caller issues a request; `overlaps` says that it does so before the one before it has completed (R259). -/
  | request (record : BitVec 37) (overlaps : Bool)
  /-- The caller deasserts select between requests (R266). -/
  | deselect
  /-- A breach of exclusive use: another thread drives the pin or the transport during a transaction (R294; log 23). -/
  | foreignDrive (what : Collaborator)
deriving DecidableEq, Repr

/-- A wire unit put before the sequencer by itself (log 3). -/
structure WireUnit where
  place : UnitPlace
  b0 : Byte
  b1 : Byte
deriving DecidableEq, Repr

/-- The pixel buffer `B` (R24): its bytes that differ from `Memory.unlisted`, by rising address (log 15). -/
abbrev Memory := List Host.Cell

/-- The change tracker `T` (R28): the bits at the logical indices 0, 1, …, H, in order (R55 allows this plain array). -/
abbrev Tracker := List Bool

/-- The elements that exist exactly while `CFG = 1` (R21). -/
structure Display where
  /-- `W` (R22). -/
  w : Nat
  /-- `H` (R22). -/
  h : Nat
  /-- `B` (R24). -/
  buf : Memory
  /-- `T`, which exists exactly when `DIFF = 1` (R28, R34). -/
  tracker : Option Tracker
  /-- `V` (R29). -/
  v : Bool
deriving DecidableEq, Repr

structure State where
  /-- `MAX_WIDTH` of this model instance: an OPEN parameter the model takes (R7, D6), read by CONFIGURE and written by
  nothing. Held here so that a claim over all states is a claim for every value (log 7). -/
  maxWidth : Nat
  /-- `W`, `H`, `DIFF`, `B`, `T`, `V`: absent until the first successful CONFIGURE (R21, R280). -/
  display : Option Display
  /-- `CS` (R30). -/
  cs : Bool
  /-- `LOG` (R31), oldest event first. -/
  log : List Event
  /-- `FAULT` (R32). -/
  fault : Option Fault
  /-- Every response given, oldest first (R83; log 18). -/
  responses : List Response
  /-- The host's moves still to come (model's own, log 2). -/
  pending : List Move
  /-- The transport answers still to come (model's own, log 9). -/
  answers : List Answer
  /-- How many free transport answers were drawn (model's own, log 9). -/
  draws : Nat
  /-- For each failed `TX` of `log`, how many of its bytes reached the panel (R262; model's own, log 11). -/
  delivered : List Nat
  /-- A wire unit to be run by itself, before the next host move. No host move puts one here: it lets the opcode table's
  wire rows be run, and a run of the block has none (model's own, log 3). -/
  bench : Option WireUnit
deriving DecidableEq, Repr

/-- The power-on state (R280); `MAX_WIDTH` is whatever the instance has (log 7), and
the model's own fields are empty (log 2, log 3, log 9, log 11, log 18). -/
def State.reset : State where
  maxWidth := Config.maxWidth
  display := none
  cs := false
  log := []
  fault := none
  responses := []
  pending := []
  answers := []
  draws := 0
  delivered := []
  bench := none

end Sys2Proof.Machine
end

