-- ==== Sys2Proof/Machine/Flags.lean ====
section
/-! DEFINITION. The flag-like state (spec/10_state.md R25): the tracker with its aggregate flag `T[0]`
(spec/42_change_tracker.md) and the polarity bit `V` (spec/44_vcom_fsm.md); and the statuses' codes (spec/60_exceptions.md R250). -/

namespace Sys2Proof.Machine

/-- `CFG` (R21): the display's state exists. -/
def State.cfg (s : State) : Bool := s.display.isSome

/-- `DIFF` (R22): the tracker is allocated exactly when diffing is enabled (R28; log 14). -/
def Display.diff (d : Display) : Bool := d.tracker.isSome

/-- A status's numeric code (R83, R250). -/
def Status.code : Status → Nat
  | .ok => 0
  | .errTransport _ => 1
  | .errConfig => 2
  | .errRange => 3

/-- `T[i]`. -/
def Tracker.bit (t : Tracker) (i : Nat) : Bool := t.getD i false

/-- A tracker for `h` rows with every bit 0 (R131). -/
def Tracker.clean (h : Nat) : Tracker := List.replicate (h + 1) false

/-- MARK_ROW_DIRTY (R162): `T[0] <- 1`, then `T[y+1] <- 1`. -/
def Tracker.markRow (t : Tracker) (y : Nat) : Tracker := (t.set 0 true).set (y + 1) true

/-- TEST_ROW (R164). -/
def Tracker.testRow (t : Tracker) (y : Nat) : Bool := t.bit (y + 1)

/-- TEST_ANY (R165). -/
def Tracker.testAny (t : Tracker) : Bool := t.bit 0

/-- CLEAR_ALL (R166). -/
def Tracker.clearAll (t : Tracker) : Tracker := t.map fun _ => false

/-- Storage byte `k` (R55): logical bit `i` is bit `i mod 8` of byte `i div 8`, and bits past `H` are 0. -/
def Tracker.storageByte (t : Tracker) (k : Nat) : Byte :=
  (List.finRange 8).foldl (fun b p => if t.bit (8 * k + p.val) then setBit b p else b) 0#8

/-- The `BFLEN(H+1)` storage bytes (R55). No port reads them; a view for the spec's own vectors (log 16). -/
def Tracker.storage (t : Tracker) : List Byte := (List.range (bflen t.length)).map t.storageByte

/-- Is row `y` sent by a RENDER: every row when `DIFF = 0`, the dirty ones when `DIFF = 1` (R87, R195). -/
def Display.selected (d : Display) (y : Nat) : Bool :=
  match d.tracker with
  | none => true
  | some t => t.testRow y

/-- MARK_ROW_DIRTY when `DIFF = 1`, nothing when `DIFF = 0` (R136, R143, R160). -/
def Display.markRow (d : Display) (y : Nat) : Display := { d with tracker := d.tracker.map fun t => t.markRow y }

/-- CLEAR_ALL when `DIFF = 1` (R195). -/
def Display.clearTracker (d : Display) : Display := { d with tracker := d.tracker.map Tracker.clearAll }

/-- `VMASK = V << 1` (R29). -/
def vmask (v : Bool) : Byte := if v then 0x02#8 else 0x00#8

/-- `V <- V ^ 1` (R232). -/
def Display.toggleV (d : Display) : Display := { d with v := !d.v }

end Sys2Proof.Machine
end

