-- ==== Sys2Proof/Machine/Memory.lean ====
section
/-! DEFINITION. The pixel buffer as a memory in one canonical form: reading and writing a byte (spec/00_scope.md R10,
spec/10_state.md R24). Which addresses exist is the display's (R51, R58): every caller forms addresses below `S*H`. -/

namespace Sys2Proof.Machine

/-- What an unlisted byte of `B` reads as: 0xFF, the value CONFIGURE gives every byte (R131; log 15). -/
def Memory.unlisted : Byte := 0xFF#8

/-- Every listed address is at least `lo`, addresses rise strictly, and no listed byte is the unlisted value. -/
def Memory.wfFrom (lo : Nat) : Memory → Bool
  | [] => true
  | (a, b) :: m => decide (lo ≤ a) && decide (b ≠ Memory.unlisted) && Memory.wfFrom (a + 1) m

/-- The canonical form. -/
def Memory.wf (m : Memory) : Bool := Memory.wfFrom 0 m

/-- `B[a]` (R10). -/
def Memory.read : Memory → Nat → Byte
  | [], _ => Memory.unlisted
  | (k, b) :: m, a => if a = k then b else Memory.read m a

/-- Put a byte in front of the cells above it, unless it is what an unlisted address reads as. -/
def Memory.push (a : Nat) (b : Byte) (m : Memory) : Memory :=
  if b = Memory.unlisted then m else (a, b) :: m

/-- `B[a] <- b` (R10), keeping the canonical form. -/
def Memory.write : Memory → Nat → Byte → Memory
  | [], a, b => Memory.push a b []
  | (k, c) :: m, a, b =>
    if a < k then Memory.push a b ((k, c) :: m)
    else if a = k then Memory.push a b m
    else (k, c) :: Memory.write m a b

/-- `MemRead(a, n)` (R10): `n` bytes, lowest address first. -/
def Memory.readRange (m : Memory) (a : Nat) : Nat → List Byte
  | 0 => []
  | n + 1 => Memory.read m a :: Memory.readRange m (a + 1) n

end Sys2Proof.Machine
end

