-- ==== Sys2Proof/Machine/Operands.lean ====
section
/-! DEFINITION. The operand forms: range checks of the signed 16-bit operands, the pixel address (spec/20_memory.md R51,
spec/41_pixel_buffer.md R135), the requested colour, and the assembly of the row index (spec/30_encoding.md R86, R91). -/

namespace Sys2Proof.Machine

/-- The check of SET_PIXEL's and IS_ROW_DIRTY's coordinates: `0 ≤ v < n` for a signed operand (R136, R170). -/
def coordOk (v : S16) (n : Nat) : Bool := decide (0 ≤ v.toInt) && decide (v.toInt < n)

/-- A coordinate that passed its check, as a natural number. -/
def coord (v : S16) : Nat := v.toInt.toNat

/-- CONFIGURE's check of one dimension: `1 ≤ v ≤ max` (R131). -/
def dimensionOk (v : S16) (max : Nat) : Bool := decide (1 ≤ v.toInt) && decide (v.toInt ≤ max)

/-- CONFIGURE's check (R131, R132). -/
def configOk (maxWidth : Nat) (width height : S16) : Bool :=
  dimensionOk height Config.maxHeight && dimensionOk width maxWidth

/-- The buffer bit a colour asks for (R81, R136): black is 0, white is 1. -/
def wantedBit (black : Bool) : Bool := !black

/-- `S` (R23): derived from `W` on every use. -/
def Display.stride (d : Display) : Nat := Machine.stride d.w

/-- `S*H`, the length of `B` (R24). -/
def Display.bufLen (d : Display) : Nat := d.stride * d.h

/-- `PADDR(x, y)` (R135). -/
def Display.paddr (d : Display) (x y : Nat) : Nat := y * d.stride + x / 8

/-- `PBIT(x)` (R135). -/
def pbit (x : Nat) : Fin 8 := ⟨x % 8, Nat.mod_lt x (by decide)⟩

/-- The bit of the buffer at column `x` of row `y`: live for `x < W`, padding for `W ≤ x < 8*S` (R51). -/
def Display.pixel (d : Display) (x y : Nat) : Bool := tstBit (d.buf.read (d.paddr x y)) (pbit x)

/-- The byte with bit `p` made `want` (R136). -/
def withBit (b : Byte) (p : Fin 8) (want : Bool) : Byte := if want then setBit b p else clrBit b p

/-- The write of one pixel (R136). -/
def Display.writePixel (d : Display) (x y : Nat) (want : Bool) : Display :=
  { d with buf := d.buf.write (d.paddr x y) (withBit (d.buf.read (d.paddr x y)) (pbit x) want) }

/-- `MemRead(y*S, S)`: a row's packed bytes (R195). -/
def Display.rowBytes (d : Display) (y : Nat) : List Byte := d.buf.readRange (y * d.stride) d.stride

/-- RENDER's command byte `0x01 | (V << 1)` (R195). -/
def renderCmd (v : Bool) : Byte := 0x01#8 ||| vmask v

/-- Header byte 0 of row index `r`: `(cmd | ((r >> 8) << 3)) mod 256` (R86, R195). -/
def headerByte0 (cmd : Byte) (r : Nat) : Byte := cmd ||| BitVec.ofNat 8 ((r / 256) * 8)

/-- Header byte 1: `r & 0xFF` (R86). -/
def headerByte1 (r : Nat) : Byte := BitVec.ofNat 8 r

/-- The trailer (R87). -/
def trailer : List Byte := [0x00#8, 0x00#8]

/-- The hold frame (R88). -/
def holdFrame (v : Bool) : List Byte := [vmask v, 0x00#8]

/-- The clear frame (R89). -/
def clearFrame (v : Bool) : List Byte := [0x04#8 ||| vmask v, 0x00#8]

end Sys2Proof.Machine
end

