-- ==== Sys2Proof/Machine/Ops.lean ====
section
/-! DEFINITION. The named operations the meanings share: the interface primitives (spec/00_scope.md R11), raising a fault and
answering a request (spec/60_exceptions.md), and the pieces of a transaction (spec/43_frame_sequencer.md R190 to R193). -/

namespace Sys2Proof.Machine

/-- `raise Fault(k)` (R12, R256): `FAULT <- k` and nothing else. There is no handler, no saved state and no return from
it (R263, R264); the step lets a faulted state go no further (log 12). -/
def raiseFault (k : Fault) (s : State) : State := { s with fault := some k }

/-- The response that ends a request (R83). -/
def respond (status : Status) (value : Option Value) (s : State) : State :=
  { s with responses := s.responses ++ [⟨status, value⟩] }

/-- "requires `CFG = 1`": the check comes first, and when it fails nothing else happens (R257). -/
def requireConfigured (s : State) (k : Display → Host.Outcome State Fault Refusal) : Host.Outcome State Fault Refusal :=
  match s.display with
  | none => .next (raiseFault .notConfigured s)
  | some d => k d

/-- Replace the display's state. -/
def State.setDisplay (s : State) (d : Display) : State := { s with display := some d }

/-- One event at the end of `LOG` (R31). -/
def State.logEvent (s : State) (e : Event) : State := { s with log := s.log ++ [e] }

/-- `Select()` (R11). -/
def select (s : State) : State := { s.logEvent .sel with cs := true }

/-- `Deselect()` (R11). -/
def deselect (s : State) : State := { s.logEvent .desel with cs := false }

/-- The caller's own deselect between requests (R266, log 21). -/
def hostDeselect (s : State) : State := { s.logEvent .hdesel with cs := false }

/-- The transport's next answer: from the input list, or a free draw when that has run out (R262, R266; log 9). -/
def drawAnswer (s : State) : Answer × State :=
  match s.answers with
  | a :: rest => (a, { s with answers := rest })
  | [] => (Config.transportAnswer s.draws, { s with draws := s.draws + 1 })

/-- `Xfer(bs)` (R11): a write list and no read buffer (R193). When it fails, how much of `bs` reached the panel is recorded
beside the log (R262, log 11). -/
def xfer (bs : List Byte) (s : State) : XferResult × State :=
  match drawAnswer s with
  | (.ok, s) => (.ok, s.logEvent (.tx bs .ok))
  | (.err e n, s) => (.err e, { s.logEvent (.tx bs (.err e)) with delivered := s.delivered ++ [min n bs.length] })

/-- One selected row of a render frame: its header, then its data block, each one `Xfer` (R191, R195); an error on
either ends it (R192). -/
def sendLine (h0 h1 : Byte) (data : List Byte) (s : State) : XferResult × State :=
  match xfer [h0, h1] s with
  | (.err e, s) => (.err e, s)
  | (.ok, s) => xfer data s

/-- The transaction of a two-byte frame, shared by HOLD_TXN (R203) and CLEAR_DISPLAY (R206): `V` is toggled only after the
frame's `Xfer` succeeded, and an abort leaves select asserted (R192). -/
def shortTransaction (d : Display) (frame : List Byte) (s : State) : Status × State :=
  match xfer frame (select s) with
  | (.err e, s) => (.errTransport e, s)
  | (.ok, s) => (.ok, deselect (s.setDisplay d.toggleV))

/-- HOLD_TXN (R203). -/
def holdTxn (d : Display) (s : State) : Status × State := shortTransaction d (holdFrame d.v) s

/-- End a request with the status of its transaction. -/
def finish (r : Status × State) : Host.Outcome State Fault Refusal := .next (respond r.1 none r.2)

end Sys2Proof.Machine
end

