-- ==== Sys2Proof/Machine/ChangeTracker.lean ====
section
/-! DEFINITION. The query requests of the row-change tracker (spec/42_change_tracker.md): IS_ROW_DIRTY, IS_ANY_DIRTY. The
micro-operations are in Machine/Flags.lean. -/

namespace Sys2Proof.Machine

/-- IS_ROW_DIRTY (R170): 1 for every valid row when `DIFF = 0`. -/
def execIsRowDirty (row : S16) (s : State) : Host.Outcome State Fault Refusal :=
  requireConfigured s fun d =>
    if coordOk row d.h then
      match d.tracker with
      | none => .next (respond .ok (some (.bit true)) s)
      | some t => .next (respond .ok (some (.bit (t.testRow (coord row)))) s)
    else
      .next (respond .errRange none s)

/-- IS_ANY_DIRTY (R172): 1 when `DIFF = 0`. -/
def execIsAnyDirty (s : State) : Host.Outcome State Fault Refusal :=
  requireConfigured s fun d =>
    match d.tracker with
    | none => .next (respond .ok (some (.bit true)) s)
    | some t => .next (respond .ok (some (.bit t.testAny)) s)

end Sys2Proof.Machine
end

