-- ==== Sys2Proof/Machine/PixelBuffer.lean ====
section
/-! DEFINITION. The pixel buffer operations (spec/41_pixel_buffer.md): CONFIGURE, SET_PIXEL, CLEAR_BUFFER, SIZE. None of them
emits a bus event (R130). -/

namespace Sys2Proof.Machine

/-- The display's state right after a successful CONFIGURE (R131, R281): every byte 0xFF, the tracker all 0 and present
exactly when `diff` is set, `V = 1`. -/
def freshDisplay (w h : Nat) (diff : Bool) : Display where
  w := w
  h := h
  buf := []
  tracker := if diff then some (Tracker.clean h) else none
  v := true

/-- CONFIGURE (R131). An operand out of range changes nothing (R132). -/
def execConfigure (width height : S16) (diff : Bool) (s : State) : Host.Outcome State Fault Refusal :=
  if configOk s.maxWidth width height then
    .next (respond .ok none (s.setDisplay (freshDisplay (coord width) (coord height) diff)))
  else
    .next (respond .errConfig none s)

/-- SET_PIXEL (R136): a pixel that has its colour already is not written and its row is not marked. -/
def execSetPixel (x y : S16) (black : Bool) (s : State) : Host.Outcome State Fault Refusal :=
  requireConfigured s fun d =>
    if coordOk x d.w && coordOk y d.h then
      if d.pixel (coord x) (coord y) = wantedBit black then
        .next (respond .ok none s)
      else
        .next (respond .ok none
          (s.setDisplay ((d.writePixel (coord x) (coord y) (wantedBit black)).markRow (coord y))))
    else
      .next (respond .errRange none s)

/-- Does row `y` hold a black pixel: the scan of the live columns (R143). -/
def Display.rowHasBlack (d : Display) (y : Nat) : Bool := (List.range d.w).any fun x => !d.pixel x y

/-- CLEAR_BUFFER's first loop (R143): mark every row that holds a black pixel, in row order. -/
def Display.markBlackRows (d : Display) : Display :=
  (List.range d.h).foldl (fun acc y => if d.rowHasBlack y then acc.markRow y else acc) d

/-- CLEAR_BUFFER's effect on the display (R143): the marks, then every byte 0xFF. -/
def Display.clearBuffer (d : Display) : Display := { d.markBlackRows with buf := [] }

/-- CLEAR_BUFFER (R143). -/
def execClearBuffer (s : State) : Host.Outcome State Fault Refusal :=
  requireConfigured s fun d => .next (respond .ok none (s.setDisplay d.clearBuffer))

/-- SIZE (R150). -/
def execSize (s : State) : Host.Outcome State Fault Refusal :=
  requireConfigured s fun d => .next (respond .ok (some (.size d.w d.h)) s)

end Sys2Proof.Machine
end

