-- ==== Sys2Proof/Machine/FrameSequencer.lean ====
section
/-! DEFINITION. The display-frame sequencer (spec/43_frame_sequencer.md): RENDER, HOLD, CLEAR_DISPLAY, CLEAR. -/

namespace Sys2Proof.Machine

/-- RENDER's row loop over the rows listed (R195): a row that is not selected is skipped, a selected one is sent, and the
first error ends the loop. `B` and `T` do not change during it, so they are read from the display at entry. -/
def sendRows (d : Display) (cmd : Byte) : List Nat → State → XferResult × State
  | [], s => (.ok, s)
  | y :: ys, s =>
    if d.selected y then
      match sendLine (headerByte0 cmd (y + 1)) (headerByte1 (y + 1)) (d.rowBytes y) s with
      | (.err e, s) => (.err e, s)
      | (.ok, s) => sendRows d cmd ys s
    else
      sendRows d cmd ys s

/-- RENDER's full path (R195): `V` is toggled after `Select()` and before the first byte, so an abort keeps the toggle; the
tracker is cleared only when every transfer succeeded (R167, R196). -/
def fullRender (d : Display) (s : State) : Status × State :=
  match sendRows d (renderCmd d.v) (List.range d.h) ((select s).setDisplay d.toggleV) with
  | (.err e, s) => (.errTransport e, s)
  | (.ok, s) =>
    match xfer trailer s with
    | (.err e, s) => (.errTransport e, s)
    | (.ok, s) => (.ok, (deselect s).setDisplay d.toggleV.clearTracker)

/-- RENDER takes the hold path exactly when `DIFF = 1` and `TEST_ANY() = 0` (R195). -/
def Display.nothingDirty (d : Display) : Bool :=
  match d.tracker with
  | none => false
  | some t => !t.testAny

/-- RENDER (R195). -/
def execRender (s : State) : Host.Outcome State Fault Refusal :=
  requireConfigured s fun d => finish (if d.nothingDirty then holdTxn d s else fullRender d s)

/-- HOLD (R202). -/
def execHold (s : State) : Host.Outcome State Fault Refusal :=
  requireConfigured s fun d => finish (holdTxn d s)

/-- CLEAR_DISPLAY (R206). -/
def execClearDisplay (s : State) : Host.Outcome State Fault Refusal :=
  requireConfigured s fun d => finish (shortTransaction d (clearFrame d.v) s)

/-- CLEAR (R210): CLEAR_BUFFER in full, then CLEAR_DISPLAY; one response, CLEAR_DISPLAY's. There is no rollback (R211). -/
def execClear (s : State) : Host.Outcome State Fault Refusal :=
  requireConfigured s fun d =>
    finish (shortTransaction d.clearBuffer (clearFrame d.v) (s.setDisplay d.clearBuffer))

end Sys2Proof.Machine
end

