-- ==== Sys2Proof/Machine/WireUnits.lean ====
section
/-! DEFINITION. The wire rows of the opcode table (spec/30_encoding.md R86 to R90), run by themselves: the sequencer sends
that unit, by the transport calls R191 gives it, and does nothing else. Select, the toggle of `V`, Deselect and the
response belong to the request whose frame the unit is part of (DESIGN CHOICE, log 3; CFG: log 5). -/

namespace Sys2Proof.Machine

/-- WIRE_WRITE_LINE (R86, R87): the header made of the unit's fields, then the `S` bytes of buffer row `r - 1`. A header
whose row index is 0 or above `H` is never emitted (R94): no row bytes exist, so it stops by name (log 6). -/
def execWireWriteLine (rhi : BitVec 5) (vcom : Bool) (rlo : Byte) (s : State) : Host.Outcome State Fault Refusal :=
  requireConfigured s fun d =>
    let r := rowIndexOf rhi rlo
    if 1 ≤ r ∧ r ≤ d.h then
      .next (sendLine (unitByte0 rhi false vcom true) rlo (d.rowBytes (r - 1)) s).2
    else
      .refused .rowNotOnDisplay

/-- WIRE_HOLD (R88): the unit carries its own polarity field, which the sequencer takes from `V`. -/
def execWireHold (vcom : Bool) (s : State) : Host.Outcome State Fault Refusal :=
  requireConfigured s fun _ => .next (xfer (holdFrame vcom) s).2

/-- WIRE_CLEAR (R89). -/
def execWireClear (vcom : Bool) (s : State) : Host.Outcome State Fault Refusal :=
  requireConfigured s fun _ => .next (xfer (clearFrame vcom) s).2

/-- WIRE_TRAILER (R87). -/
def execWireTrailer (s : State) : Host.Outcome State Fault Refusal :=
  requireConfigured s fun _ => .next (xfer trailer s).2

end Sys2Proof.Machine
end

