-- ==== Sys2Proof/Machine/Dispatch.lean ====
section
/-! DEFINITION. One arm for each constructor of Instr, each one call of its meaning. -/

namespace Sys2Proof.Machine

def exec (i : Instr) (s : State) : Host.Outcome State Fault Refusal :=
  match i with
  | .configure width height diff => Sys2Proof.Machine.execConfigure width height diff s
  | .setPixel x y black => Sys2Proof.Machine.execSetPixel x y black s
  | .clearBuffer => Sys2Proof.Machine.execClearBuffer s
  | .render => Sys2Proof.Machine.execRender s
  | .hold => Sys2Proof.Machine.execHold s
  | .clearDisplay => Sys2Proof.Machine.execClearDisplay s
  | .clear => Sys2Proof.Machine.execClear s
  | .size => Sys2Proof.Machine.execSize s
  | .isRowDirty row => Sys2Proof.Machine.execIsRowDirty row s
  | .isAnyDirty => Sys2Proof.Machine.execIsAnyDirty s
  | .wireWriteLine rhi vcom rlo => Sys2Proof.Machine.execWireWriteLine rhi vcom rlo s
  | .wireHold vcom => Sys2Proof.Machine.execWireHold vcom s
  | .wireClear vcom => Sys2Proof.Machine.execWireClear vcom s
  | .wireTrailer => Sys2Proof.Machine.execWireTrailer s

end Sys2Proof.Machine
end

