-- ==== Sys2Proof/Machine/Port.lean ====
section
/-! DEFINITION. The port: taking the next move from outside and decoding it (spec/30_encoding.md R80 to R82,
spec/60_exceptions.md R256 to R260, R266, spec/70_reset_and_hazards.md R294). -/

namespace Sys2Proof.Machine

/-- What the port makes of the next move. -/
inductive Accepted where
  /-- `FAULT` is set: no further step (R256). -/
  | stopped (k : Fault)
  /-- Nothing to run: the state as the move leaves it. -/
  | moved (s : State)
  /-- An instruction to run, in the state with its move taken. -/
  | run (i : Instr) (s : State)
  /-- Two bytes that are no wire unit (R94). -/
  | refuse (r : Refusal)

/-- A request (R260's order): CONCURRENT_ACCESS before ILLEGAL_OP before everything the operation itself checks. The overlap
flag alone decides: with no earlier request to overlap, the fault is raised all the same (DESIGN CHOICE, safe, log 13). -/
def acceptRequest (r : BitVec 37) (overlaps : Bool) (s : State) : Accepted :=
  if overlaps then .moved (raiseFault .concurrentAccess s)
  else
    match decode (.request r) with
    | .ok i => .run i s
    | .error _ => .moved (raiseFault .illegalOp s)

/-- A host move, in the state with the move taken. -/
def acceptMove (m : Move) (s : State) : Accepted :=
  match m with
  | .request r overlaps => acceptRequest r overlaps s
  | .deselect => .moved (hostDeselect s)
  | .foreignDrive _ => .moved (raiseFault .concurrentAccess s)

/-- A wire unit run by itself (log 3), in the state with the unit taken. -/
def acceptUnit (u : WireUnit) (s : State) : Accepted :=
  match decode (.unit u.place u.b0 u.b1) with
  | .ok i => .run i s
  | .error _ => .refuse .notAWireUnit

/-- The port. A faulted state goes no further (R32, R256). With no move pending the block waits (R282). -/
def accept (s : State) : Accepted :=
  match s.fault, s.bench, s.pending with
  | some k, _, _ => .stopped k
  | none, some u, _ => acceptUnit u { s with bench := none }
  | none, none, [] => .moved s
  | none, none, m :: rest => acceptMove m { s with pending := rest }

end Sys2Proof.Machine
end

