-- ==== Sys2Proof/Machine/Step.lean ====
section
/-! DEFINITION. One step: one move from outside, run to completion (spec/10_state.md R27, spec/20_memory.md R56). The block
has no program counter and fetches no instruction; a program is the list of moves `pending` (log 2). -/

namespace Sys2Proof.Machine

def step (s : State) : Host.Outcome State Fault Refusal :=
  match accept s with
  | .stopped k => .fault k
  | .moved s' => .next s'
  | .run i s' => exec i s'
  | .refuse r => .refused r

/-- The state with a code put where the next step takes it: a request before every pending move, a wire unit on the bench
(log 2, log 3). -/
def State.withCode (s : State) : Code → State
  | .request r => { s with bench := none, pending := .request r false :: s.pending }
  | .unit place b0 b1 => { s with bench := some ⟨place, b0, b1⟩ }

/-- The state with a word of the opcode table put where the next step takes it. -/
def State.withFetchWord (s : State) (nbits w : Nat) : State := s.withCode (tableCode nbits w)

end Sys2Proof.Machine
end

