-- ==== Sys2Proof/Machine/Wire.lean ====
section
/-! DEFINITION. Views of the wire, none of them read by a meaning: what a frame is made of (spec/30_encoding.md R87, spec/43_frame_sequencer.md
R191, R197), what a reader of the wire recovers (R91 to R93), what the panel received (spec/10_state.md R31, spec/60_exceptions.md R262,
R264), what the coming transport answers are, and the electrical parameters (R53, R7). -/

namespace Sys2Proof.Machine

/-! ### The frame a RENDER sends -/

/-- The rows a full-path RENDER sends, in increasing order (R87). -/
def Display.selectedRows (d : Display) : List Nat := (List.range d.h).filter d.selected

/-- A row's header (R86), for the row index `r = y + 1`. -/
def headerOf (v : Bool) (y : Nat) : List Byte := [headerByte0 (renderCmd v) (y + 1), headerByte1 (y + 1)]

/-- The write lists of a full-path RENDER, one for each transport call (R191): header and data of each selected row, then
the trailer. -/
def Display.renderCalls (d : Display) : List (List Byte) :=
  (d.selectedRows.flatMap fun y => [headerOf d.v y, d.rowBytes y]) ++ [trailer]

/-- The events of transport calls that all succeed. -/
def okEvents (calls : List (List Byte)) : List Event := calls.map fun bs => .tx bs .ok

/-- The bytes of a full-path RENDER's frame (R87, R197). -/
def Display.renderFrame (d : Display) : List Byte := d.renderCalls.flatten

/-! ### The transport's coming answers -/

/-- The answer the transport gives to the `k`-th coming call, counted from 0 (log 9). -/
def State.answerAt (s : State) (k : Nat) : Answer :=
  match s.answers[k]? with
  | some a => a
  | none => Config.transportAnswer (s.draws + (k - s.answers.length))

/-- The state with the next `n` transport answers used up and nothing else changed. -/
def State.afterCalls (s : State) (n : Nat) : State :=
  { s with answers := s.answers.drop n, draws := s.draws + (n - s.answers.length) }

/-! ### What was sent and what the panel received -/

/-- The write lists of a log's `TX` events, in order. -/
def sentCalls : List Event → List (List Byte)
  | [] => []
  | .tx bs _ :: es => bs :: sentCalls es
  | .sel :: es => sentCalls es
  | .desel :: es => sentCalls es
  | .hdesel :: es => sentCalls es

/-- The write lists of a log's failed `TX` events, in order. -/
def failedCalls : List Event → List (List Byte)
  | [] => []
  | .tx bs (.err _) :: es => bs :: failedCalls es
  | .tx _ .ok :: es => failedCalls es
  | .sel :: es => failedCalls es
  | .desel :: es => failedCalls es
  | .hdesel :: es => failedCalls es

/-- One event's effect on the logical select state. -/
def csAfter (c : Bool) : Event → Bool
  | .sel => true
  | .desel => false
  | .hdesel => false
  | .tx _ _ => c

/-- The select state a log leads to from deasserted (R30, R35). -/
def csOfLog (log : List Event) : Bool := log.foldl csAfter false

/-- The bytes the panel received, one list for each select window, the open one last. A window opens at a `SEL` while
none is open; a `SEL` inside an open window leaves it open, so bytes after an abort follow the failed frame's (R264, R290).
Of a failed transfer only the delivered bytes count (R262); `open?` is the open window so far. -/
def receivedWindows : List Event → List Nat → Option (List Byte) → List (List Byte)
  | [], _, open? => open?.toList
  | .sel :: es, ds, open? => receivedWindows es ds (some (open?.getD []))
  | .desel :: es, ds, open? => open?.toList ++ receivedWindows es ds none
  | .hdesel :: es, ds, open? => open?.toList ++ receivedWindows es ds none
  | .tx bs .ok :: es, ds, open? => receivedWindows es ds (open?.map (· ++ bs))
  | .tx bs (.err _) :: es, ds, open? => receivedWindows es ds.tail (open?.map (· ++ bs.take (ds.headD 0)))

/-- What the panel received since power-on (R31, R262). -/
def State.panelWindows (s : State) : List (List Byte) := receivedWindows s.log s.delivered none

/-! ### Reading a frame back -/

/-- One line of a render frame as a reader of the wire recovers it (R91). -/
structure WireLine where
  vcom : Bool
  rowIndex : Nat
  data : List Byte
deriving DecidableEq, Repr

/-- A transaction's frame as a reader recovers it: the three kinds of R96. -/
inductive Frame where
  | render (lines : List WireLine)
  | hold (vcom : Bool)
  | clear (vcom : Bool)
deriving DecidableEq, Repr

/-- The lines of a render frame, once the stride is known (R92): a header, `stride` bytes, and so on until the trailer,
which ends the frame. `fuel` bounds the number of units. -/
def parseLines (stride : Nat) : (fuel : Nat) → List Byte → Option (List WireLine)
  | 0, _ => none
  | _ + 1, [] => none
  | _ + 1, [_] => none
  | fuel + 1, b0 :: b1 :: rest =>
    match decodeUnit .afterRow b0 b1 with
    | .ok (.wireWriteLine rhi vcom rlo) =>
      if rest.length < stride then none
      else (parseLines stride fuel (rest.drop stride)).map (⟨vcom, rowIndexOf rhi rlo, rest.take stride⟩ :: ·)
    | .ok .wireTrailer => if rest.isEmpty then some [] else none
    | _ => none

/-- A whole transaction's frame (R92, R93): its first unit says its kind. -/
def parseFrame (stride : Nat) : List Byte → Option Frame
  | [] => none
  | [_] => none
  | b0 :: b1 :: rest =>
    match decodeUnit .opensWindow b0 b1 with
    | .ok (.wireHold vcom) => if rest.isEmpty then some (.hold vcom) else none
    | .ok (.wireClear vcom) => if rest.isEmpty then some (.clear vcom) else none
    | .ok (.wireWriteLine _ _ _) => (parseLines stride (rest.length + 2) (b0 :: b1 :: rest)).map .render
    | _ => none

/-- The polarity bit a frame unit carries: bit 1 of its first byte (R90). -/
def vcomOf (b0 : Byte) : Bool := b0.getLsbD 1

/-- The polarity bits a log's transactions carry, in order: of each `SEL` the first byte of the `TX` after it (R233). -/
def carriedPolarities : List Event → List Bool
  | [] => []
  | .sel :: .tx (b0 :: _) _ :: es => vcomOf b0 :: carriedPolarities es
  | _ :: es => carriedPolarities es

/-! ### The electrical parameters -/

/-- The bits of a byte in the order they leave on the line, under a wire bit order (R53). -/
def serialBits (order : BitOrder) (b : Byte) : List Bool :=
  match order with
  | .lsbFirst => (List.finRange 8).map (tstBit b)
  | .msbFirst => ((List.finRange 8).map (tstBit b)).reverse

/-- The level of the select pin for a logical select state (R7, R30): `Config.csActiveLevel` when asserted. -/
def selectLevel (cs : Bool) : Bool := if cs then Config.csActiveLevel else !Config.csActiveLevel

end Sys2Proof.Machine
end

