-- ==== Sys2Proof/Safety.lean ====
section
/-! DEFINITION. What a claim may ask of a state or a run: the invariants of spec/10_state.md R28, R34, a final state
(spec/60_exceptions.md R256), and running requests one after another. -/

namespace Sys2Proof.Machine

/-- The tracker of a display of `h` rows: its length (R28), and the aggregate flag set exactly when some row bit is (R28,
R168). -/
structure Tracker.Inv (t : Tracker) (h : Nat) : Prop where
  length : t.length = h + 1
  aggregate : t.bit 0 = true ↔ ∃ i, 1 ≤ i ∧ i ≤ h ∧ t.bit i = true

/-- R22's ranges and R34's invariants, with the canonical form of the buffer. `length(B) = S*H` says that no byte is
listed past the end. -/
structure Display.Inv (d : Display) (maxWidth : Nat) : Prop where
  width : 1 ≤ d.w ∧ d.w ≤ maxWidth
  height : 1 ≤ d.h ∧ d.h ≤ Config.maxHeight
  canonical : d.buf.wf = true
  bounded : ∀ c ∈ d.buf, c.1 < d.bufLen
  padding : ∀ x y, d.w ≤ x → x < 8 * d.stride → y < d.h → d.pixel x y = true
  tracker : ∀ t, d.tracker = some t → t.Inv d.h

/-- The invariant of the machine: the parameter in its range (R7), the display's invariants while it exists, `CS` as the log
says (R30, R31), and one delivered count, within bounds, for each failed transfer (R262). -/
structure State.Inv (s : State) : Prop where
  parameter : 1 ≤ s.maxWidth ∧ s.maxWidth ≤ 32767
  display : ∀ d, s.display = some d → d.Inv s.maxWidth
  select : s.cs = csOfLog s.log
  delivered : List.Forall₂ (fun bs n => n ≤ bs.length) (failedCalls s.log) s.delivered

/-- A final state: every move done, and no fault ("a faulted state is never final", R12, R256). -/
def State.final (s : State) : Bool := s.pending.isEmpty && s.bench.isNone && s.fault.isNone

/-- Power loss destroys all of the block's state (R283): what follows is a run from power-on. It is no move of the host table
(R266), so no step takes it. -/
def State.afterPowerLoss (s : State) : State := { State.reset with maxWidth := s.maxWidth }

/-- Run instructions one after another, stopping at a stop and at a raised fault (R256). -/
def execAll : List Instr → State → Host.Outcome State Fault Refusal
  | [], s => .next s
  | i :: is, s =>
    match s.fault with
    | some k => .fault k
    | none =>
      match exec i s with
      | .next s' => execAll is s'
      | .fault k => .fault k
      | .refused r => .refused r

/-- The ten requests of the port (R81), as against the wire units. -/
def isRequest : Instr → Bool
  | .configure _ _ _ => true
  | .setPixel _ _ _ => true
  | .clearBuffer => true
  | .render => true
  | .hold => true
  | .clearDisplay => true
  | .clear => true
  | .size => true
  | .isRowDirty _ => true
  | .isAnyDirty => true
  | .wireWriteLine _ _ _ => false
  | .wireHold _ => false
  | .wireClear _ => false
  | .wireTrailer => false

/-- The requests that run a transaction (R15, R234). -/
def isTransaction : Instr → Bool
  | .configure _ _ _ => false
  | .setPixel _ _ _ => false
  | .clearBuffer => false
  | .render => true
  | .hold => true
  | .clearDisplay => true
  | .clear => true
  | .size => false
  | .isRowDirty _ => false
  | .isAnyDirty => false
  | .wireWriteLine _ _ _ => false
  | .wireHold _ => false
  | .wireClear _ => false
  | .wireTrailer => false

end Sys2Proof.Machine
end

