-- ==== Sys2Proof/Certificates/Slice0/Obligations.lean ====
section
/-! DEFINITION. The statements for the provers. Each docstring names the rule or section of spec/ it formalises; where a statement
rests on a choice of the spec's own (a decision D<n> of spec/92_eei_decisions.md, an inference it marks [derived]) or of the
model's (a log entry), the docstring says so and the statement has basis 'derived'. -/

open Sys2Proof Sys2Proof.Machine

/-! ### Encodings -/

/-- Decoding the code of any instruction gives the instruction back, whatever its operands: no bit of an encoding is
dropped. The record's layout is the model's (log 1), the opcode values are the spec's decision D2, the wire units are R86 to
R90's. -/
def Obligations.DecodeReadsBackEveryEncoding : Prop :=
  ∀ i : Instr, decode (encode i) = .ok i

/-- R81's opcode assignment (decision D2): every record, with any bits in its operand places (log 1), decodes by its OP
alone to the operation of that OP with the record's operands. -/
def Obligations.RequestOpcodesDecodeAsAssigned : Prop :=
  ∀ (a b : S16) (c : Bool),
    decode (.request (record 0x1#4 a b c)) = .ok (.configure a b c) ∧
    decode (.request (record 0x2#4 a b c)) = .ok (.setPixel a b c) ∧
    decode (.request (record 0x3#4 a b c)) = .ok .clearBuffer ∧
    decode (.request (record 0x4#4 a b c)) = .ok .render ∧
    decode (.request (record 0x5#4 a b c)) = .ok .hold ∧
    decode (.request (record 0x6#4 a b c)) = .ok .clearDisplay ∧
    decode (.request (record 0x7#4 a b c)) = .ok .clear ∧
    decode (.request (record 0x8#4 a b c)) = .ok .size ∧
    decode (.request (record 0x9#4 a b c)) = .ok (.isRowDirty a) ∧
    decode (.request (record 0xA#4 a b c)) = .ok .isAnyDirty

/-- R82 (decision D2): a record whose OP is 0x1 to 0xA decodes to an instruction, and one whose OP is 0x0 or 0xB to 0xF is
rejected by the OP's name. -/
def Obligations.UnassignedOpsAreRejected : Prop :=
  ∀ r : BitVec 37,
    ((1 ≤ (recordOp r).toNat ∧ (recordOp r).toNat ≤ 10) → ∃ i, decode (.request r) = .ok i) ∧
    (((recordOp r).toNat = 0 ∨ 11 ≤ (recordOp r).toNat) → decode (.request r) = .error (.unassignedOp (recordOp r)))

/-- R86 to R90: two bytes that decode to a wire unit are that unit's own bytes, so the decoder ignores no bit of them. -/
def Obligations.WireUnitsAreTheirBytes : Prop :=
  ∀ (place : UnitPlace) (b0 b1 : Byte) (i : Instr),
    decode (.unit place b0 b1) = .ok i → ∃ place', encode i = .unit place' b0 b1

/-- The byte patterns of R94 [derived] that match no wire row of the opcode table at their place: write together with clear, a hold
or clear byte 0 with a bit of 7:3 set, a second byte other than 0 outside a header, and after a row anything but a header or
`[0, 0]`. The decoder rejects them by name (log 6; the place is log 4). The headers R94 also lists match the write-line row and
decode; WIRE_WRITE_LINE stops on them (WriteLineUnitStopsOffTheDisplay). -/
def Obligations.BytesMatchingNoWireRowAreRejected : Prop :=
  ∀ (place : UnitPlace) (b0 b1 : Byte),
    ((b0.getLsbD 0 = true ∧ b0.getLsbD 2 = true) ∨
      (b0.getLsbD 0 = false ∧ ((∃ k, 3 ≤ k ∧ k ≤ 7 ∧ b0.getLsbD k = true) ∨ b1 ≠ 0#8)) ∨
      (place = .afterRow ∧ b0.getLsbD 0 = false ∧ (b0 ≠ 0#8 ∨ b1 ≠ 0#8))) →
    decode (.unit place b0 b1) = .error (.notAWireUnit b0 b1)

/-- R86: the header's two bytes for row index `r = y + 1`, as numbers. -/
def Obligations.RowHeaderBytes : Prop :=
  ∀ (v : Bool) (y : Nat), y + 1 ≤ Config.maxHeight →
    ∃ h0 h1 : Byte, headerOf v y = [h0, h1] ∧
      h0.toNat = (0x01 ||| (if v then 0x02 else 0x00) ||| (((y + 1) >>> 8) <<< 3)) % 256 ∧
      h1.toNat = (y + 1) &&& 0xFF

/-- R91: a reader of a header recovers the row index `y + 1` and the polarity bit, and the header is well formed. -/
def Obligations.ReaderRecoversTheRowIndex : Prop :=
  ∀ (place : UnitPlace) (v : Bool) (y : Nat), y + 1 ≤ Config.maxHeight →
    ∃ rhi rlo, decode (.unit place (headerByte0 (renderCmd v) (y + 1)) (headerByte1 (y + 1))) = .ok (.wireWriteLine rhi v rlo) ∧
      rowIndexOf rhi rlo = y + 1 ∧ (Instr.wireWriteLine rhi v rlo).wf = true

/-- R88 and R89: the hold frame and the clear frame, byte for byte, for each polarity. -/
def Obligations.HoldAndClearFrames : Prop :=
  (holdFrame true = [0x02#8, 0x00#8] ∧ holdFrame false = [0x00#8, 0x00#8]) ∧
  (clearFrame true = [0x06#8, 0x00#8] ∧ clearFrame false = [0x04#8, 0x00#8])

/-- Words written out from spec/opcode_table.json (match values and the vectors of spec/95_test_vectors.md) decode to their rows. The
request's operand bits follow the model's layout (log 1); a 16-bit word is read as the first unit of its window (log 4), and so
0x0200 and 0x0400 as a hold and a clear frame. -/
def Obligations.SampleWordsDecode : Prop :=
  decodeTableWord 8 0x5 = some .hold ∧
  decodeTableWord 40 (0x2 + 13 * 2 ^ 4 + 2 * 2 ^ 20 + 2 ^ 36) = some (.setPixel 13 2 true) ∧
  decodeTableWord 8 0xC = none ∧
  decodeTableWord 16 0x1BE8 = some (.wireWriteLine 3 true 0xE8) ∧
  decodeTableWord 16 0x0200 = some (.wireHold true) ∧
  decodeTableWord 16 0x0400 = some (.wireClear false)

/-! ### Bit utilities, layout and memory -/

/-- R110, R111, R112: bit `q` of SETBIT's and CLRBIT's result, and TSTBIT as bit `p` of the byte. -/
def Obligations.BitFunctionsChangeOneBit : Prop :=
  ∀ (b : Byte) (p q : Fin 8),
    tstBit b p = decide (b.toNat / 2 ^ p.val % 2 = 1) ∧
    tstBit (setBit b p) q = (if q = p then true else tstBit b q) ∧
    tstBit (clrBit b p) q = (if q = p then false else tstBit b q)

/-- R115 and R117 [both derived]: BFLEN is the ceiling of `n/8`; STRIDE is even, at least 2, covers the width, pads by at
most 15 bits, and is the byte count rounded up by 0 or 1. -/
def Obligations.SizeFunctionLaws : Prop :=
  (∀ n, 1 ≤ n → bflen n = (n + 7) / 8) ∧
  (∀ w, 1 ≤ w → stride w % 2 = 0 ∧ 2 ≤ stride w ∧ w ≤ 8 * stride w ∧ 8 * stride w - w ≤ 15 ∧
    (stride w = (w + 7) / 8 ∨ stride w = (w + 7) / 8 + 1))

/-- The buffer's data form (log 15): canonical memories that read alike at every address are equal. -/
def Obligations.CanonicalMemoriesAreTheirContents : Prop :=
  ∀ m m' : Memory, m.wf = true → m'.wf = true → (∀ a, m.read a = m'.read a) → m = m'

/-- R58 and R135: every address formed for a column of the packed row (live or padding) of a row of the display lies inside
the buffer. -/
def Obligations.PixelAddressesStayInside : Prop :=
  ∀ (d : Display) (x y : Nat), x < 8 * d.stride → y < d.h → d.paddr x y < d.bufLen

/-- R51: two different columns or rows never share a bit of the buffer. -/
def Obligations.PixelsDoNotShareBits : Prop :=
  ∀ (d : Display) (x y x' y' : Nat), x < 8 * d.stride → x' < 8 * d.stride →
    d.paddr x y = d.paddr x' y' → pbit x = pbit x' → x = x' ∧ y = y'

/-- R55 (decision D16; a view, log 16): logical bit `i` of the tracker is bit `i mod 8` of storage byte `i div 8`, and the
storage has `BFLEN` of the bit count bytes. -/
def Obligations.TrackerStorageLayout : Prop :=
  ∀ t : Tracker, t.storage.length = bflen t.length ∧
    ∀ i, tstBit (t.storageByte (i / 8)) (pbit i) = t.bit i

/-! ### CONFIGURE -/

/-- R131, R281: CONFIGURE with admitted operands completes; W, H and DIFF are the operands, every byte reads 0xFF, the tracker
is present exactly when `diff` is set and all 0, `V = 1` (the spec's inference D32), and nothing but the display and the
response changes (`CS` kept: decision D15). The bounds are the decisions D5, D6. -/
def Obligations.ConfigureBuildsTheDisplay : Prop :=
  ∀ (s : State) (width height : S16) (diff : Bool),
    1 ≤ width.toInt → width.toInt ≤ s.maxWidth → 1 ≤ height.toInt → height.toInt ≤ 2047 →
    ∃ d, exec (.configure width height diff) s =
        .next { s with display := some d, responses := s.responses ++ [⟨.ok, none⟩] } ∧
      (d.w : Int) = width.toInt ∧ (d.h : Int) = height.toInt ∧ d.diff = diff ∧
      (∀ a, d.buf.read a = 0xFF#8) ∧ d.v = true ∧
      (∀ t, d.tracker = some t → t.length = d.h + 1 ∧ ∀ i, t.bit i = false)

/-- R132 (decisions D3, D5, D6): CONFIGURE with an operand out of range answers ERR_CONFIG and changes nothing else. -/
def Obligations.ConfigureRejectsWithoutChange : Prop :=
  ∀ (s : State) (width height : S16) (diff : Bool),
    (width.toInt < 1 ∨ (s.maxWidth : Int) < width.toInt ∨ height.toInt < 1 ∨ 2047 < height.toInt) →
    exec (.configure width height diff) s = .next { s with responses := s.responses ++ [⟨.errConfig, none⟩] }

/-! ### SET_PIXEL -/

/-- R136, a pixel that changes: SET_PIXEL completes; the pixel's bit is the requested colour, every other bit of its byte and
every other byte is as before, with `DIFF = 1` exactly `T[0]` and `T[y+1]` are set besides what was set, and nothing else
of the state changes but the response. -/
def Obligations.SetPixelPaintsAndMarks : Prop :=
  ∀ (s : State) (d : Display) (x y : S16) (black : Bool) (cx cy : Nat),
    s.display = some d → d.Inv s.maxWidth →
    x.toInt = cx → y.toInt = cy → cx < d.w → cy < d.h → d.pixel cx cy ≠ !black →
    ∃ d', exec (.setPixel x y black) s =
        .next { s with display := some d', responses := s.responses ++ [⟨.ok, none⟩] } ∧
      d'.w = d.w ∧ d'.h = d.h ∧ d'.v = d.v ∧
      (∀ q, tstBit (d'.buf.read (d.paddr cx cy)) q =
        if q = pbit cx then !black else tstBit (d.buf.read (d.paddr cx cy)) q) ∧
      (∀ a, a ≠ d.paddr cx cy → d'.buf.read a = d.buf.read a) ∧
      (d.tracker = none → d'.tracker = none) ∧
      (∀ t, d.tracker = some t → ∃ t', d'.tracker = some t' ∧
        ∀ i, t'.bit i = (decide (i = 0) || decide (i = cy + 1) || t.bit i))

/-- R136's short-circuit: a pixel that has the requested colour already is not written and its row is not marked. -/
def Obligations.SetPixelSameColourChangesNothing : Prop :=
  ∀ (s : State) (d : Display) (x y : S16) (black : Bool) (cx cy : Nat),
    s.display = some d → x.toInt = cx → y.toInt = cy → cx < d.w → cy < d.h → d.pixel cx cy = !black →
    exec (.setPixel x y black) s = .next { s with responses := s.responses ++ [⟨.ok, none⟩] }

/-- R137 (decision D4): an out-of-range coordinate answers ERR_RANGE and changes nothing else. -/
def Obligations.SetPixelOutOfRangeChangesNothing : Prop :=
  ∀ (s : State) (d : Display) (x y : S16) (black : Bool),
    s.display = some d → (x.toInt < 0 ∨ (d.w : Int) ≤ x.toInt ∨ y.toInt < 0 ∨ (d.h : Int) ≤ y.toInt) →
    exec (.setPixel x y black) s = .next { s with responses := s.responses ++ [⟨.errRange, none⟩] }

/-- R138 [derived]: the second of two identical SET_PIXEL requests on a pixel of the display writes and marks nothing. -/
def Obligations.SetPixelTwiceIsOnce : Prop :=
  ∀ (s : State) (d : Display) (x y : S16) (black : Bool),
    s.display = some d → d.Inv s.maxWidth →
    0 ≤ x.toInt → x.toInt < d.w → 0 ≤ y.toInt → y.toInt < d.h →
    ∃ t, exec (.setPixel x y black) s = .next t ∧
      exec (.setPixel x y black) t = .next { t with responses := t.responses ++ [⟨.ok, none⟩] }

/-! ### CLEAR_BUFFER -/

/-- R143, R146: CLEAR_BUFFER completes; every byte reads 0xFF, with `DIFF = 1` a row's bit is set exactly if it was or the row
held a black pixel, `T[0]` exactly if it was or some row did, and nothing else changes but the response. -/
def Obligations.ClearBufferWhitensAndMarks : Prop :=
  ∀ (s : State) (d : Display), s.display = some d → d.Inv s.maxWidth →
    ∃ d', exec .clearBuffer s =
        .next { s with display := some d', responses := s.responses ++ [⟨.ok, none⟩] } ∧
      d'.w = d.w ∧ d'.h = d.h ∧ d'.v = d.v ∧ (∀ a, d'.buf.read a = 0xFF#8) ∧
      (d.tracker = none → d'.tracker = none) ∧
      (∀ t, d.tracker = some t → ∃ t', d'.tracker = some t' ∧ t'.length = t.length ∧
        (∀ y, y < d.h → (t'.testRow y = true ↔ t.testRow y = true ∨ ∃ x, x < d.w ∧ d.pixel x y = false)) ∧
        (t'.testAny = true ↔ t.testAny = true ∨ ∃ x y, x < d.w ∧ y < d.h ∧ d.pixel x y = false))

/-- R144 [derived]: because padding bits are 1, scanning the live columns of a row finds a black pixel exactly when some byte of
the row differs from 0xFF. -/
def Obligations.RowScanSeesEveryNonWhiteByte : Prop :=
  ∀ (d : Display) (maxWidth y : Nat), d.Inv maxWidth → y < d.h →
    (d.rowHasBlack y = true ↔ ∃ b ∈ d.rowBytes y, b ≠ 0xFF#8)

/-! ### SIZE and the tracker queries -/

/-- R150: SIZE completes with (W, H) and changes nothing but the response; unconfigured, it raises NOT_CONFIGURED. -/
def Obligations.SizeAnswersTheDimensions : Prop :=
  ∀ s : State,
    (∀ d, s.display = some d →
      exec .size s = .next { s with responses := s.responses ++ [⟨.ok, some (.size d.w d.h)⟩] }) ∧
    (s.display = none → exec .size s = .next { s with fault := some .notConfigured })

/-- R170 (decision D17): IS_ROW_DIRTY completes: ERR_RANGE for a row outside the display, else 1 when `DIFF = 0` and the
row's bit when `DIFF = 1`; nothing but the response changes. -/
def Obligations.RowDirtyQueryAnswers : Prop :=
  ∀ (s : State) (d : Display) (row : S16), s.display = some d →
    ((row.toInt < 0 ∨ (d.h : Int) ≤ row.toInt) →
      exec (.isRowDirty row) s = .next { s with responses := s.responses ++ [⟨.errRange, none⟩] }) ∧
    (∀ y : Nat, row.toInt = y → y < d.h →
      (d.tracker = none →
        exec (.isRowDirty row) s = .next { s with responses := s.responses ++ [⟨.ok, some (.bit true)⟩] }) ∧
      (∀ t, d.tracker = some t →
        exec (.isRowDirty row) s = .next { s with responses := s.responses ++ [⟨.ok, some (.bit (t.bit (y + 1)))⟩] }))

/-- R172 (decision D17): IS_ANY_DIRTY completes with 1 when `DIFF = 0` and with `T[0]` when `DIFF = 1`; nothing but the
response changes. -/
def Obligations.AnyDirtyQueryAnswers : Prop :=
  ∀ (s : State) (d : Display), s.display = some d →
    (d.tracker = none →
      exec .isAnyDirty s = .next { s with responses := s.responses ++ [⟨.ok, some (.bit true)⟩] }) ∧
    (∀ t, d.tracker = some t →
      exec .isAnyDirty s = .next { s with responses := s.responses ++ [⟨.ok, some (.bit (t.bit 0))⟩] })

/-- R168's law [derived by the spec] as the two queries answer it: IS_ANY_DIRTY answers 1 exactly when IS_ROW_DIRTY answers 1 for
some row. In the mode `DIFF = 0` both answers are the spec's decision D17. -/
def Obligations.AnyDirtyExactlyWhenSomeRowIs : Prop :=
  ∀ (s : State) (d : Display), s.display = some d → d.Inv s.maxWidth →
    (exec .isAnyDirty s = .next (respond .ok (some (.bit true)) s) ↔
      ∃ row : S16, exec (.isRowDirty row) s = .next (respond .ok (some (.bit true)) s))

/-! ### The tracker's micro-operations -/

/-- R162: MARK_ROW_DIRTY on a row of the display sets `T[0]` and `T[y+1]` and no other bit. -/
def Obligations.MarkRowDirtySetsTwoBits : Prop :=
  ∀ (t : Tracker) (h y : Nat), t.length = h + 1 → y < h →
    (t.markRow y).length = h + 1 ∧
    ∀ i, (t.markRow y).bit i = true ↔ i = 0 ∨ i = y + 1 ∨ t.bit i = true

/-! ### RENDER -/

/-- R87, R195: a full-path RENDER whose transfers all succeed completes. Its events are `SEL`, then for each selected row in
increasing order its header and its S bytes, then the trailer, then `DESEL`; `V` is inverted, the tracker is all 0,
`CS = 0`, and nothing else changes but the transport's answers used and the response. One call for a header, a data
block and the trailer each is the decision D9. -/
def Obligations.RenderSendsTheSelectedRows : Prop :=
  ∀ (s : State) (d : Display), s.display = some d → (∀ t, d.tracker = some t → t.testAny = true) →
    (∀ k, k < d.renderCalls.length → s.answerAt k = .ok) →
    exec .render s = .next { s.afterCalls d.renderCalls.length with
      display := some { d with v := !d.v, tracker := d.tracker.map fun t => t.map fun _ => false }
      cs := false
      log := s.log ++ [.sel] ++ okEvents d.renderCalls ++ [.desel]
      responses := s.responses ++ [⟨.ok, none⟩] }

/-- R192, R196 with the call split of decision D9: a full-path RENDER whose `k`-th transfer is the first to fail ends there with
ERR_TRANSPORT(e). The calls before it were sent, it is logged as failed with the delivered part drawn (R262), `V` was
inverted already, the tracker and the buffer are kept, and select stays asserted. -/
def Obligations.RenderAbortsAtTheFirstError : Prop :=
  ∀ (s : State) (d : Display) (k : Nat) (bs : List Byte) (e : TransportError) (n : Nat),
    s.display = some d → (∀ t, d.tracker = some t → t.testAny = true) →
    d.renderCalls[k]? = some bs → (∀ j, j < k → s.answerAt j = .ok) → s.answerAt k = .err e n →
    exec .render s = .next { s.afterCalls (k + 1) with
      display := some { d with v := !d.v }
      cs := true
      log := s.log ++ [.sel] ++ okEvents (d.renderCalls.take k) ++ [.tx bs (.err e)]
      delivered := s.delivered ++ [min n bs.length]
      responses := s.responses ++ [⟨.errTransport e, none⟩] }

/-- R199 [derived]: with `DIFF = 1` and `T[0] = 0` RENDER does exactly what HOLD does, whatever the transport answers. -/
def Obligations.RenderWithNothingDirtyIsHold : Prop :=
  ∀ (s : State) (d : Display) (t : Tracker), s.display = some d → d.tracker = some t → t.testAny = false →
    exec .render s = exec .hold s

/-- R197, R54 [both derived]: a full-path frame has `k*(2 + S) + 2` bytes for its `k` selected rows, an even number; `k = H` when
`DIFF = 0` (R198). -/
def Obligations.RenderFrameLength : Prop :=
  ∀ d : Display,
    d.renderFrame.length = d.selectedRows.length * (2 + d.stride) + 2 ∧
    d.renderFrame.length % 2 = 0 ∧
    (d.tracker = none → d.selectedRows.length = d.h)

/-- R91, R92, R95: a reader who knows S recovers from a full-path frame exactly the selected rows in order, each with its row
index `y + 1`, its bytes, and the one polarity bit of the whole frame, V at entry. -/
def Obligations.RenderFrameReadsBack : Prop :=
  ∀ (d : Display) (maxWidth : Nat), d.Inv maxWidth → (∀ t, d.tracker = some t → t.testAny = true) →
    parseFrame d.stride d.renderFrame =
      some (.render (d.selectedRows.map fun y => ⟨d.v, y + 1, d.rowBytes y⟩))

/-- RENDER's full path is its wire units run one after another (log 3) between `Select()` with the toggle of V and `Deselect()`
with CLEAR_ALL: the table's wire rows and RENDER's rule describe the same bytes and calls. -/
def Obligations.RenderRunsItsWireUnits : Prop :=
  ∀ (s : State) (d : Display), s.fault = none → s.display = some d → d.Inv s.maxWidth →
    (∀ t, d.tracker = some t → t.testAny = true) →
    (∀ k, k < d.renderCalls.length → s.answerAt k = .ok) →
    ∃ (units : List Instr) (u : State),
      units.map (fun i => encode i) =
        d.selectedRows.map (fun y => Code.unit .opensWindow (headerByte0 (renderCmd d.v) (y + 1)) (headerByte1 (y + 1))) ∧
      execAll (units ++ [.wireTrailer]) ((select s).setDisplay { d with v := !d.v }) = .next u ∧
      exec .render s = .next (respond .ok none
        ((deselect u).setDisplay { d with v := !d.v, tracker := d.tracker.map Tracker.clearAll }))

/-! ### HOLD, CLEAR_DISPLAY, CLEAR -/

/-- R88, R203: HOLD whose transfer succeeds completes: the hold frame of V at entry between `SEL` and `DESEL`, V inverted,
`CS = 0`, nothing else changed but the answer used and the response; B and T are kept. -/
def Obligations.HoldSendsTheHoldFrame : Prop :=
  ∀ (s : State) (d : Display), s.display = some d → s.answerAt 0 = .ok →
    exec .hold s = .next { s.afterCalls 1 with
      display := some { d with v := !d.v }
      cs := false
      log := s.log ++ [.sel, .tx [if d.v then 0x02#8 else 0x00#8, 0x00#8] .ok, .desel]
      responses := s.responses ++ [⟨.ok, none⟩] }

/-- R192, R203 (decision D10): HOLD whose transfer fails ends with ERR_TRANSPORT(e); V is not inverted and select stays
asserted. -/
def Obligations.HoldAbortKeepsPolarity : Prop :=
  ∀ (s : State) (d : Display) (e : TransportError) (n : Nat), s.display = some d → s.answerAt 0 = .err e n →
    exec .hold s = .next { s.afterCalls 1 with
      cs := true
      log := s.log ++ [.sel, .tx [if d.v then 0x02#8 else 0x00#8, 0x00#8] (.err e)]
      delivered := s.delivered ++ [min n 2]
      responses := s.responses ++ [⟨.errTransport e, none⟩] }

/-- R89, R206: CLEAR_DISPLAY whose transfer succeeds completes: the clear frame of V at entry between `SEL` and `DESEL`, V
inverted, `CS = 0`; B and T are kept. -/
def Obligations.ClearDisplaySendsTheClearFrame : Prop :=
  ∀ (s : State) (d : Display), s.display = some d → s.answerAt 0 = .ok →
    exec .clearDisplay s = .next { s.afterCalls 1 with
      display := some { d with v := !d.v }
      cs := false
      log := s.log ++ [.sel, .tx [if d.v then 0x06#8 else 0x04#8, 0x00#8] .ok, .desel]
      responses := s.responses ++ [⟨.ok, none⟩] }

/-- R192, R206 (decision D10): CLEAR_DISPLAY whose transfer fails ends with ERR_TRANSPORT(e); V, B and T are kept and select
stays asserted. -/
def Obligations.ClearDisplayAbortKeepsPolarity : Prop :=
  ∀ (s : State) (d : Display) (e : TransportError) (n : Nat), s.display = some d → s.answerAt 0 = .err e n →
    exec .clearDisplay s = .next { s.afterCalls 1 with
      cs := true
      log := s.log ++ [.sel, .tx [if d.v then 0x06#8 else 0x04#8, 0x00#8] (.err e)]
      delivered := s.delivered ++ [min n 2]
      responses := s.responses ++ [⟨.errTransport e, none⟩] }

/-- R210, R211: CLEAR is CLEAR_BUFFER followed by CLEAR_DISPLAY, whatever the transport answers, with the one response of
CLEAR_DISPLAY; so an abort leaves the buffer white and the rows marked (decision D11). -/
def Obligations.ClearIsBufferThenDisplay : Prop :=
  ∀ (s : State) (d : Display), s.display = some d →
    ∃ t u r, exec .clearBuffer s = .next t ∧ exec .clearDisplay t = .next u ∧
      t.responses = s.responses ++ [⟨.ok, none⟩] ∧ u.responses = t.responses ++ [r] ∧
      exec .clear s = .next { u with responses := s.responses ++ [r] }

/-- R210's result when the transfer succeeds: every byte 0xFF, the clear frame of V at entry, V inverted, `CS = 0`, W and H kept,
one response OK. -/
def Obligations.ClearWhitensAndSendsTheClearFrame : Prop :=
  ∀ (s : State) (d : Display), s.display = some d → s.answerAt 0 = .ok →
    ∃ d', exec .clear s = .next { s.afterCalls 1 with
        display := some d'
        cs := false
        log := s.log ++ [.sel, .tx [if d.v then 0x06#8 else 0x04#8, 0x00#8] .ok, .desel]
        responses := s.responses ++ [⟨.ok, none⟩] } ∧
      d'.w = d.w ∧ d'.h = d.h ∧ d'.v = !d.v ∧ d'.diff = d.diff ∧ ∀ a, d'.buf.read a = 0xFF#8

/-! ### The wire units run by themselves (log 3: the model's reading of the table's wire rows) -/

/-- R86, R87's line of a render frame, as log 3 reads the row: WIRE_WRITE_LINE for a row of the display sends the header of its
fields and then the row's S bytes, one transfer each (decision D9), and nothing else changes. If the header's transfer fails the
row is not sent (R192); a failed transfer is logged with the part delivered (decision D29). -/
def Obligations.WriteLineUnitSendsHeaderAndRow : Prop :=
  ∀ (s : State) (d : Display) (rhi : BitVec 5) (v : Bool) (rlo : Byte) (y : Nat),
    s.display = some d → rowIndexOf rhi rlo = y + 1 → y < d.h →
    ∃ h0 : Byte, h0.toNat = 1 + (if v then 2 else 0) + 8 * rhi.toNat ∧
      (s.answerAt 0 = .ok → s.answerAt 1 = .ok →
        exec (.wireWriteLine rhi v rlo) s = .next { s.afterCalls 2 with
          log := s.log ++ [.tx [h0, rlo] .ok, .tx (d.rowBytes y) .ok] }) ∧
      (∀ e n, s.answerAt 0 = .err e n →
        exec (.wireWriteLine rhi v rlo) s = .next { s.afterCalls 1 with
          log := s.log ++ [.tx [h0, rlo] (.err e)]
          delivered := s.delivered ++ [min n 2] }) ∧
      (∀ e n, s.answerAt 0 = .ok → s.answerAt 1 = .err e n →
        exec (.wireWriteLine rhi v rlo) s = .next { s.afterCalls 2 with
          log := s.log ++ [.tx [h0, rlo] .ok, .tx (d.rowBytes y) (.err e)]
          delivered := s.delivered ++ [min n d.stride] })

/-- R91, R94 and the choice of log 6: a header whose row index is 0 or above H is never emitted, and WIRE_WRITE_LINE stops on
it by name. -/
def Obligations.WriteLineUnitStopsOffTheDisplay : Prop :=
  ∀ (s : State) (d : Display) (rhi : BitVec 5) (v : Bool) (rlo : Byte),
    s.display = some d → (rowIndexOf rhi rlo = 0 ∨ d.h < rowIndexOf rhi rlo) →
    exec (.wireWriteLine rhi v rlo) s = .refused .rowNotOnDisplay

/-- R87, R88, R89's units, as log 3 reads the rows: each sends its two bytes in one transfer, logged, and changes nothing else;
a failed transfer is logged with the part delivered. -/
def Obligations.TwoByteUnitsSendTheirBytes : Prop :=
  ∀ (s : State) (d : Display) (v : Bool) (i : Instr) (bs : List Byte), s.display = some d →
    ((i = .wireHold v ∧ bs = [if v then 0x02#8 else 0x00#8, 0x00#8]) ∨
      (i = .wireClear v ∧ bs = [if v then 0x06#8 else 0x04#8, 0x00#8]) ∨
      (i = .wireTrailer ∧ bs = [0x00#8, 0x00#8])) →
    (s.answerAt 0 = .ok → exec i s = .next { s.afterCalls 1 with log := s.log ++ [.tx bs .ok] }) ∧
    (∀ e n, s.answerAt 0 = .err e n → exec i s = .next { s.afterCalls 1 with
      log := s.log ++ [.tx bs (.err e)]
      delivered := s.delivered ++ [min n 2] })

/-! ### Faults, the port and the step -/

/-- R257 (decision D8): every operation but CONFIGURE, on an unconfigured block, raises NOT_CONFIGURED before anything else: no
other field changes, no event, no response. The wire rows do so by log 5. -/
def Obligations.UnconfiguredOperationsFault : Prop :=
  ∀ (i : Instr) (s : State), (∀ w h f, i ≠ .configure w h f) → s.display = none →
    exec i s = .next { s with fault := some .notConfigured }

/-- R256, R258 to R260, R294 (decisions D2, D19, D20; log 13, log 23): an overlapping request raises CONCURRENT_ACCESS whatever
its OP, and so does another thread driving the pin or the transport during a transaction; a request that does not overlap and
has an unassigned OP raises ILLEGAL_OP. Each time only the move taken and FAULT change. -/
def Obligations.PortFaultPriority : Prop :=
  ∀ (s : State) (rest : List Move), s.fault = none → s.bench = none →
    (∀ r, s.pending = .request r true :: rest →
      step s = .next { s with pending := rest, fault := some .concurrentAccess }) ∧
    (∀ what, s.pending = .foreignDrive what :: rest →
      step s = .next { s with pending := rest, fault := some .concurrentAccess }) ∧
    (∀ r, s.pending = .request r false :: rest → ((recordOp r).toNat = 0 ∨ 11 ≤ (recordOp r).toNat) →
      step s = .next { s with pending := rest, fault := some .illegalOp })

/-- R32, R256 (decisions D8, D20): a state whose FAULT is set takes no further step. That its step answers the host's fault
outcome, with the kind, is log 12. -/
def Obligations.FaultedStateTakesNoStep : Prop :=
  ∀ (s : State) (k : Fault), s.fault = some k → step s = .fault k

/-- A step runs the decoded instruction. When the next host move is a request that does not overlap, or a wire unit is on the
bench (log 3), and its code decodes to `i`, the step is `exec i` in the state with that code taken (log 2). A code put before
the block by `withCode` is the one the next step runs. -/
def Obligations.StepRunsTheDecodedInstruction : Prop :=
  ∀ (s : State) (i : Instr), s.fault = none →
    (∀ r rest, s.bench = none → s.pending = .request r false :: rest → decode (.request r) = .ok i →
      step s = exec i { s with pending := rest }) ∧
    (∀ place b0 b1, s.bench = some ⟨place, b0, b1⟩ → decode (.unit place b0 b1) = .ok i →
      step s = exec i { s with bench := none }) ∧
    (∀ c, decode c = .ok i → step (s.withCode c) = exec i { s with bench := none })

/-- R266 (decision D21): the caller's deselect clears CS and logs HDESEL. R282: with no move pending the block waits unchanged
(log 2). And the host's moves never bring a wire unit to the bench: a run that starts without one has none (log 3). -/
def Obligations.HostMovesAndWaiting : Prop :=
  ∀ s : State, s.fault = none → s.bench = none →
    (∀ rest, s.pending = .deselect :: rest →
      step s = .next { s with pending := rest, cs := false, log := s.log ++ [.hdesel] }) ∧
    (s.pending = [] → step s = .next s) ∧
    (∀ t, step s = .next t → t.bench = none ∧ ∃ taken, s.pending = taken ++ t.pending)

/-! ### Rules of the whole machine -/

/-- R7, R22, R28, R34, R30 with the canonical form of memory: from every state that meets the invariant, a step keeps it. -/
def Obligations.StepKeepsInvariant : Prop :=
  ∀ s t : State, s.Inv → step s = .next t → t.Inv

/-- The invariant holds at reset; and R280's power-on values (decisions D8, D14). -/
def Obligations.ResetMeetsInvariant : Prop :=
  State.reset.Inv ∧ State.reset.display = none ∧ State.reset.cs = false ∧ State.reset.log = [] ∧ State.reset.fault = none

/-- R31: a step only appends to LOG. -/
def Obligations.LogOnlyGrows : Prop :=
  ∀ s t : State, step s = .next t → ∃ es, t.log = s.log ++ es

/-- R190: a transaction's events are `SEL`, transfers, `DESEL`; or an abort cuts them short right after the failing transfer, with no
`DESEL`. A request that runs no transaction emits nothing (R130, R170, R172), and neither does any request but CONFIGURE on an
unconfigured block (R257, decision D8). -/
def Obligations.RequestsEmitOneTransaction : Prop :=
  ∀ (i : Instr) (s t : State), isRequest i = true → exec i s = .next t →
    ∃ es, t.log = s.log ++ es ∧
      ((es = [] ∧ (isTransaction i = false ∨ s.display = none)) ∨
        (isTransaction i = true ∧ ∃ calls, calls ≠ [] ∧ es = [.sel] ++ okEvents calls ++ [.desel]) ∨
        (isTransaction i = true ∧ ∃ calls bs e, es = [.sel] ++ okEvents calls ++ [.tx bs (.err e)]))

/-- R130, R232: a request that runs no transaction emits no event, makes no transport call and keeps CS; and unless it is
CONFIGURE (log 22) it keeps V. -/
def Obligations.OnlyTransactionsTouchTheBus : Prop :=
  ∀ (i : Instr) (s t : State), isRequest i = true → isTransaction i = false → exec i s = .next t →
    t.log = s.log ∧ t.cs = s.cs ∧ t.answers = s.answers ∧ t.draws = s.draws ∧ t.delivered = s.delivered ∧
    ((∀ w h f, i ≠ .configure w h f) → t.display.map Display.v = s.display.map Display.v)

/-- R21, R22: no operation unconfigures the block, and none but CONFIGURE writes W, H or DIFF. -/
def Obligations.OnlyConfigureWritesTheConfiguration : Prop :=
  ∀ (i : Instr) (s t : State) (d : Display), exec i s = .next t → s.display = some d →
    ∃ d', t.display = some d' ∧
      ((∀ w h f, i ≠ .configure w h f) → d'.w = d.w ∧ d'.h = d.h ∧ d'.diff = d.diff)

/-- R252 (decisions D3, D4): a request answered ERR_CONFIG or ERR_RANGE changed nothing but the list of responses. -/
def Obligations.RangeErrorsChangeNothing : Prop :=
  ∀ (i : Instr) (s t : State) (v : Option Value), exec i s = .next t →
    (t.responses = s.responses ++ [⟨.errConfig, v⟩] ∨ t.responses = s.responses ++ [⟨.errRange, v⟩]) →
    t = { s with responses := t.responses }

/-- R83, R253 [derived]: a configured request, and CONFIGURE always, gives exactly one response and no fault; ERR_TRANSPORT comes
only from a transaction, ERR_CONFIG only from CONFIGURE, ERR_RANGE only from SET_PIXEL and IS_ROW_DIRTY, and a value only from a
query that answered OK. -/
def Obligations.EachRequestAnswersItsStatuses : Prop :=
  ∀ (i : Instr) (s : State), isRequest i = true → ((∃ w h f, i = .configure w h f) ∨ s.display ≠ none) →
    ∃ t r, exec i s = .next t ∧ t.responses = s.responses ++ [r] ∧ t.fault = s.fault ∧
      (∀ e, r.status = .errTransport e → isTransaction i = true) ∧
      (r.status = .errConfig → ∃ w h f, i = .configure w h f) ∧
      (r.status = .errRange → (∃ x y b, i = .setPixel x y b) ∨ ∃ row, i = .isRowDirty row) ∧
      (r.value ≠ none → r.status = .ok ∧ (i = .size ∨ i = .isAnyDirty ∨ ∃ row, i = .isRowDirty row))

/-- R160, R167: a set tracker bit is cleared by nothing but CONFIGURE or a RENDER that answered OK. -/
def Obligations.OnlyASuccessfulRenderClearsMarks : Prop :=
  ∀ (i : Instr) (s t : State) (d d' : Display) (tr tr' : Tracker) (k : Nat),
    (∀ w h f, i ≠ .configure w h f) → exec i s = .next t →
    s.display = some d → t.display = some d' → d.tracker = some tr → d'.tracker = some tr' →
    tr.bit k = true → tr'.bit k = false →
    i = .render ∧ t.responses = s.responses ++ [⟨.ok, none⟩] ∧ ∀ j, tr'.bit j = false

/-- R169, R297 [derived]: a row whose bit is 0 after an operation other than CONFIGURE and RENDER had bit 0 before it, and has
the same bytes. -/
def Obligations.CleanRowsKeepTheirBytes : Prop :=
  ∀ (i : Instr) (s t : State) (d d' : Display) (tr tr' : Tracker) (y : Nat),
    (∀ w h f, i ≠ .configure w h f) → i ≠ .render → exec i s = .next t →
    s.display = some d → d.Inv s.maxWidth → t.display = some d' → d.tracker = some tr → d'.tracker = some tr' →
    y < d.h → tr'.testRow y = false →
    tr.testRow y = false ∧ d'.rowBytes y = d.rowBytes y

/-- R234 [derived]: over any requests but CONFIGURE, with no transfer failing, the polarity bits carried on the wire alternate,
starting with V at the start; every RENDER, HOLD, CLEAR_DISPLAY and CLEAR counts as one, and V ends accordingly. -/
def Obligations.PolarityAlternates : Prop :=
  ∀ (is : List Instr) (s t : State) (d : Display),
    s.Inv → s.fault = none → s.display = some d →
    (∀ i ∈ is, isRequest i = true ∧ ∀ w h f, i ≠ .configure w h f) →
    execAll is s = .next t → failedCalls t.log = failedCalls s.log →
    ∃ es, t.log = s.log ++ es ∧
      carriedPolarities es = (List.range (is.countP isTransaction)).map (fun k => if k % 2 = 0 then d.v else !d.v) ∧
      t.display.map Display.v = some (if is.countP isTransaction % 2 = 0 then d.v else !d.v)

/-- R31, R262, R264, R290 (draws of D29): what the panel receives from a HOLD. While select was left asserted the bytes follow those
of the same select window, else they open a new one; of a failed transfer the drawn part arrives. -/
def Obligations.PanelReceivesTheHoldFrame : Prop :=
  ∀ (s t : State) (d : Display) (got : List Byte), s.Inv → s.display = some d → exec .hold s = .next t →
    (s.answerAt 0 = .ok ∧ got = holdFrame d.v ∨ ∃ e n, s.answerAt 0 = .err e n ∧ got = (holdFrame d.v).take n) →
    (s.cs = false → t.panelWindows = s.panelWindows ++ [got]) ∧
    (s.cs = true → ∃ older window, s.panelWindows = older ++ [window] ∧ t.panelWindows = older ++ [window ++ got])
end

