-- ==== Sys2Proof/Laws/State.lean ====
section
/-! SUPPORT. One lemma for each field of each update of State, true by rfl, so that no proof unfolds a record update. -/

namespace Sys2Proof.Machine

@[simp] theorem raiseFault_maxWidth (k : Fault) (s : State) : (raiseFault k s).maxWidth = s.maxWidth := rfl
@[simp] theorem raiseFault_display (k : Fault) (s : State) : (raiseFault k s).display = s.display := rfl
@[simp] theorem raiseFault_cs (k : Fault) (s : State) : (raiseFault k s).cs = s.cs := rfl
@[simp] theorem raiseFault_log (k : Fault) (s : State) : (raiseFault k s).log = s.log := rfl
@[simp] theorem raiseFault_fault (k : Fault) (s : State) : (raiseFault k s).fault = some k := rfl
@[simp] theorem raiseFault_responses (k : Fault) (s : State) : (raiseFault k s).responses = s.responses := rfl
@[simp] theorem raiseFault_pending (k : Fault) (s : State) : (raiseFault k s).pending = s.pending := rfl
@[simp] theorem raiseFault_answers (k : Fault) (s : State) : (raiseFault k s).answers = s.answers := rfl
@[simp] theorem raiseFault_draws (k : Fault) (s : State) : (raiseFault k s).draws = s.draws := rfl
@[simp] theorem raiseFault_delivered (k : Fault) (s : State) : (raiseFault k s).delivered = s.delivered := rfl
@[simp] theorem raiseFault_bench (k : Fault) (s : State) : (raiseFault k s).bench = s.bench := rfl

@[simp] theorem respond_maxWidth (st : Status) (v : Option Value) (s : State) : (respond st v s).maxWidth = s.maxWidth := rfl
@[simp] theorem respond_display (st : Status) (v : Option Value) (s : State) : (respond st v s).display = s.display := rfl
@[simp] theorem respond_cs (st : Status) (v : Option Value) (s : State) : (respond st v s).cs = s.cs := rfl
@[simp] theorem respond_log (st : Status) (v : Option Value) (s : State) : (respond st v s).log = s.log := rfl
@[simp] theorem respond_fault (st : Status) (v : Option Value) (s : State) : (respond st v s).fault = s.fault := rfl
@[simp] theorem respond_responses (st : Status) (v : Option Value) (s : State) : (respond st v s).responses = s.responses ++ [⟨st, v⟩] := rfl
@[simp] theorem respond_pending (st : Status) (v : Option Value) (s : State) : (respond st v s).pending = s.pending := rfl
@[simp] theorem respond_answers (st : Status) (v : Option Value) (s : State) : (respond st v s).answers = s.answers := rfl
@[simp] theorem respond_draws (st : Status) (v : Option Value) (s : State) : (respond st v s).draws = s.draws := rfl
@[simp] theorem respond_delivered (st : Status) (v : Option Value) (s : State) : (respond st v s).delivered = s.delivered := rfl
@[simp] theorem respond_bench (st : Status) (v : Option Value) (s : State) : (respond st v s).bench = s.bench := rfl

@[simp] theorem setDisplay_maxWidth (s : State) (d : Display) : (s.setDisplay d).maxWidth = s.maxWidth := rfl
@[simp] theorem setDisplay_display (s : State) (d : Display) : (s.setDisplay d).display = some d := rfl
@[simp] theorem setDisplay_cs (s : State) (d : Display) : (s.setDisplay d).cs = s.cs := rfl
@[simp] theorem setDisplay_log (s : State) (d : Display) : (s.setDisplay d).log = s.log := rfl
@[simp] theorem setDisplay_fault (s : State) (d : Display) : (s.setDisplay d).fault = s.fault := rfl
@[simp] theorem setDisplay_responses (s : State) (d : Display) : (s.setDisplay d).responses = s.responses := rfl
@[simp] theorem setDisplay_pending (s : State) (d : Display) : (s.setDisplay d).pending = s.pending := rfl
@[simp] theorem setDisplay_answers (s : State) (d : Display) : (s.setDisplay d).answers = s.answers := rfl
@[simp] theorem setDisplay_draws (s : State) (d : Display) : (s.setDisplay d).draws = s.draws := rfl
@[simp] theorem setDisplay_delivered (s : State) (d : Display) : (s.setDisplay d).delivered = s.delivered := rfl
@[simp] theorem setDisplay_bench (s : State) (d : Display) : (s.setDisplay d).bench = s.bench := rfl

@[simp] theorem logEvent_maxWidth (s : State) (e : Event) : (s.logEvent e).maxWidth = s.maxWidth := rfl
@[simp] theorem logEvent_display (s : State) (e : Event) : (s.logEvent e).display = s.display := rfl
@[simp] theorem logEvent_cs (s : State) (e : Event) : (s.logEvent e).cs = s.cs := rfl
@[simp] theorem logEvent_log (s : State) (e : Event) : (s.logEvent e).log = s.log ++ [e] := rfl
@[simp] theorem logEvent_fault (s : State) (e : Event) : (s.logEvent e).fault = s.fault := rfl
@[simp] theorem logEvent_responses (s : State) (e : Event) : (s.logEvent e).responses = s.responses := rfl
@[simp] theorem logEvent_pending (s : State) (e : Event) : (s.logEvent e).pending = s.pending := rfl
@[simp] theorem logEvent_answers (s : State) (e : Event) : (s.logEvent e).answers = s.answers := rfl
@[simp] theorem logEvent_draws (s : State) (e : Event) : (s.logEvent e).draws = s.draws := rfl
@[simp] theorem logEvent_delivered (s : State) (e : Event) : (s.logEvent e).delivered = s.delivered := rfl
@[simp] theorem logEvent_bench (s : State) (e : Event) : (s.logEvent e).bench = s.bench := rfl

@[simp] theorem select_maxWidth (s : State) : (select s).maxWidth = s.maxWidth := rfl
@[simp] theorem select_display (s : State) : (select s).display = s.display := rfl
@[simp] theorem select_cs (s : State) : (select s).cs = true := rfl
@[simp] theorem select_log (s : State) : (select s).log = s.log ++ [.sel] := rfl
@[simp] theorem select_fault (s : State) : (select s).fault = s.fault := rfl
@[simp] theorem select_responses (s : State) : (select s).responses = s.responses := rfl
@[simp] theorem select_pending (s : State) : (select s).pending = s.pending := rfl
@[simp] theorem select_answers (s : State) : (select s).answers = s.answers := rfl
@[simp] theorem select_draws (s : State) : (select s).draws = s.draws := rfl
@[simp] theorem select_delivered (s : State) : (select s).delivered = s.delivered := rfl
@[simp] theorem select_bench (s : State) : (select s).bench = s.bench := rfl

@[simp] theorem deselect_maxWidth (s : State) : (deselect s).maxWidth = s.maxWidth := rfl
@[simp] theorem deselect_display (s : State) : (deselect s).display = s.display := rfl
@[simp] theorem deselect_cs (s : State) : (deselect s).cs = false := rfl
@[simp] theorem deselect_log (s : State) : (deselect s).log = s.log ++ [.desel] := rfl
@[simp] theorem deselect_fault (s : State) : (deselect s).fault = s.fault := rfl
@[simp] theorem deselect_responses (s : State) : (deselect s).responses = s.responses := rfl
@[simp] theorem deselect_pending (s : State) : (deselect s).pending = s.pending := rfl
@[simp] theorem deselect_answers (s : State) : (deselect s).answers = s.answers := rfl
@[simp] theorem deselect_draws (s : State) : (deselect s).draws = s.draws := rfl
@[simp] theorem deselect_delivered (s : State) : (deselect s).delivered = s.delivered := rfl
@[simp] theorem deselect_bench (s : State) : (deselect s).bench = s.bench := rfl

@[simp] theorem hostDeselect_maxWidth (s : State) : (hostDeselect s).maxWidth = s.maxWidth := rfl
@[simp] theorem hostDeselect_display (s : State) : (hostDeselect s).display = s.display := rfl
@[simp] theorem hostDeselect_cs (s : State) : (hostDeselect s).cs = false := rfl
@[simp] theorem hostDeselect_log (s : State) : (hostDeselect s).log = s.log ++ [.hdesel] := rfl
@[simp] theorem hostDeselect_fault (s : State) : (hostDeselect s).fault = s.fault := rfl
@[simp] theorem hostDeselect_responses (s : State) : (hostDeselect s).responses = s.responses := rfl
@[simp] theorem hostDeselect_pending (s : State) : (hostDeselect s).pending = s.pending := rfl
@[simp] theorem hostDeselect_answers (s : State) : (hostDeselect s).answers = s.answers := rfl
@[simp] theorem hostDeselect_draws (s : State) : (hostDeselect s).draws = s.draws := rfl
@[simp] theorem hostDeselect_delivered (s : State) : (hostDeselect s).delivered = s.delivered := rfl
@[simp] theorem hostDeselect_bench (s : State) : (hostDeselect s).bench = s.bench := rfl

@[simp] theorem afterCalls_maxWidth (s : State) (n : Nat) : (s.afterCalls n).maxWidth = s.maxWidth := rfl
@[simp] theorem afterCalls_display (s : State) (n : Nat) : (s.afterCalls n).display = s.display := rfl
@[simp] theorem afterCalls_cs (s : State) (n : Nat) : (s.afterCalls n).cs = s.cs := rfl
@[simp] theorem afterCalls_log (s : State) (n : Nat) : (s.afterCalls n).log = s.log := rfl
@[simp] theorem afterCalls_fault (s : State) (n : Nat) : (s.afterCalls n).fault = s.fault := rfl
@[simp] theorem afterCalls_responses (s : State) (n : Nat) : (s.afterCalls n).responses = s.responses := rfl
@[simp] theorem afterCalls_pending (s : State) (n : Nat) : (s.afterCalls n).pending = s.pending := rfl
@[simp] theorem afterCalls_answers (s : State) (n : Nat) : (s.afterCalls n).answers = s.answers.drop n := rfl
@[simp] theorem afterCalls_draws (s : State) (n : Nat) : (s.afterCalls n).draws = s.draws + (n - s.answers.length) := rfl
@[simp] theorem afterCalls_delivered (s : State) (n : Nat) : (s.afterCalls n).delivered = s.delivered := rfl
@[simp] theorem afterCalls_bench (s : State) (n : Nat) : (s.afterCalls n).bench = s.bench := rfl

@[simp] theorem markRow_w (d : Display) (y : Nat) : (d.markRow y).w = d.w := rfl
@[simp] theorem markRow_h (d : Display) (y : Nat) : (d.markRow y).h = d.h := rfl
@[simp] theorem markRow_buf (d : Display) (y : Nat) : (d.markRow y).buf = d.buf := rfl
@[simp] theorem markRow_tracker (d : Display) (y : Nat) : (d.markRow y).tracker = d.tracker.map fun t => t.markRow y := rfl
@[simp] theorem markRow_v (d : Display) (y : Nat) : (d.markRow y).v = d.v := rfl

@[simp] theorem clearTracker_w (d : Display) : (d.clearTracker).w = d.w := rfl
@[simp] theorem clearTracker_h (d : Display) : (d.clearTracker).h = d.h := rfl
@[simp] theorem clearTracker_buf (d : Display) : (d.clearTracker).buf = d.buf := rfl
@[simp] theorem clearTracker_tracker (d : Display) : (d.clearTracker).tracker = d.tracker.map Tracker.clearAll := rfl
@[simp] theorem clearTracker_v (d : Display) : (d.clearTracker).v = d.v := rfl

@[simp] theorem toggleV_w (d : Display) : (d.toggleV).w = d.w := rfl
@[simp] theorem toggleV_h (d : Display) : (d.toggleV).h = d.h := rfl
@[simp] theorem toggleV_buf (d : Display) : (d.toggleV).buf = d.buf := rfl
@[simp] theorem toggleV_tracker (d : Display) : (d.toggleV).tracker = d.tracker := rfl
@[simp] theorem toggleV_v (d : Display) : (d.toggleV).v = !d.v := rfl

@[simp] theorem writePixel_w (d : Display) (x y : Nat) (b : Bool) : (d.writePixel x y b).w = d.w := rfl
@[simp] theorem writePixel_h (d : Display) (x y : Nat) (b : Bool) : (d.writePixel x y b).h = d.h := rfl
@[simp] theorem writePixel_buf (d : Display) (x y : Nat) (b : Bool) : (d.writePixel x y b).buf = d.buf.write (d.paddr x y) (withBit (d.buf.read (d.paddr x y)) (pbit x) b) := rfl
@[simp] theorem writePixel_tracker (d : Display) (x y : Nat) (b : Bool) : (d.writePixel x y b).tracker = d.tracker := rfl
@[simp] theorem writePixel_v (d : Display) (x y : Nat) (b : Bool) : (d.writePixel x y b).v = d.v := rfl

@[simp] theorem freshDisplay_w (w h : Nat) (f : Bool) : (freshDisplay w h f).w = w := rfl
@[simp] theorem freshDisplay_h (w h : Nat) (f : Bool) : (freshDisplay w h f).h = h := rfl
@[simp] theorem freshDisplay_buf (w h : Nat) (f : Bool) : (freshDisplay w h f).buf = [] := rfl
@[simp] theorem freshDisplay_v (w h : Nat) (f : Bool) : (freshDisplay w h f).v = true := rfl
@[simp] theorem freshDisplay_tracker (w h : Nat) (f : Bool) :
    (freshDisplay w h f).tracker = if f then some (Tracker.clean h) else none := rfl

@[simp] theorem withCode_maxWidth (s : State) (c : Code) : (s.withCode c).maxWidth = s.maxWidth := by cases c <;> rfl
@[simp] theorem withCode_display (s : State) (c : Code) : (s.withCode c).display = s.display := by cases c <;> rfl
@[simp] theorem withCode_cs (s : State) (c : Code) : (s.withCode c).cs = s.cs := by cases c <;> rfl
@[simp] theorem withCode_log (s : State) (c : Code) : (s.withCode c).log = s.log := by cases c <;> rfl
@[simp] theorem withCode_fault (s : State) (c : Code) : (s.withCode c).fault = s.fault := by cases c <;> rfl
@[simp] theorem withCode_responses (s : State) (c : Code) : (s.withCode c).responses = s.responses := by cases c <;> rfl
@[simp] theorem withCode_answers (s : State) (c : Code) : (s.withCode c).answers = s.answers := by cases c <;> rfl
@[simp] theorem withCode_draws (s : State) (c : Code) : (s.withCode c).draws = s.draws := by cases c <;> rfl
@[simp] theorem withCode_delivered (s : State) (c : Code) : (s.withCode c).delivered = s.delivered := by cases c <;> rfl

/-- Two states with the same fields are the same: for goals about one changed field. -/
theorem State.ext_fields {s t : State} (h0 : s.maxWidth = t.maxWidth) (h1 : s.display = t.display) (h2 : s.cs = t.cs)
    (h3 : s.log = t.log) (h4 : s.fault = t.fault) (h5 : s.responses = t.responses) (h6 : s.pending = t.pending)
    (h7 : s.answers = t.answers) (h8 : s.draws = t.draws) (h9 : s.delivered = t.delivered)
    (h10 : s.bench = t.bench) : s = t := by
  cases s; cases t; simp_all

/-- An operation that needs the display, in a configured state. -/
theorem requireConfigured_some {s : State} {d : Display} (h : s.display = some d)
    (k : Display → Host.Outcome State Fault Refusal) : requireConfigured s k = k d := by
  simp [requireConfigured, h]

/-- An operation that needs the display, in an unconfigured state (R257). -/
theorem requireConfigured_none {s : State} (h : s.display = none)
    (k : Display → Host.Outcome State Fault Refusal) :
    requireConfigured s k = .next (raiseFault .notConfigured s) := by
  simp [requireConfigured, h]

/-- Everything "requires CFG = 1" can do. -/
theorem requireConfigured_next {s t : State} {k : Display → Host.Outcome State Fault Refusal}
    (h : requireConfigured s k = .next t) :
    (s.display = none ∧ t = raiseFault .notConfigured s) ∨ ∃ d, s.display = some d ∧ k d = .next t := by
  cases hd : s.display with
  | none => rw [requireConfigured_none hd] at h; exact .inl ⟨rfl, (Host.Outcome.next.inj h).symm⟩
  | some d => rw [requireConfigured_some hd] at h; exact .inr ⟨d, rfl, h⟩

end Sys2Proof.Machine
end

