-- ==== Sys2Proof/Laws/Bits.lean ====
section
/-! SUPPORT. The bit utilities (spec/40_bit_utilities.md): what each function does to every bit, and the laws of STRIDE (R117). -/

namespace Sys2Proof.Machine

theorem tstBit_eq_getLsbD (b : Byte) (p : Fin 8) : tstBit b p = b.getLsbD p.val := by
  rw [Bool.eq_iff_iff]
  simp only [tstBit, beq_iff_eq]
  constructor
  · intro h
    have := congrArg (fun v : Byte => v.getLsbD 0) h
    simpa using this
  · intro h
    ext i hi
    by_cases h0 : i = 0
    · subst h0; simpa using h
    · simp [h0]

theorem tstBit_setBit (b : Byte) (p q : Fin 8) : tstBit (setBit b p) q = (decide (q = p) || tstBit b q) := by
  rw [tstBit_eq_getLsbD, tstBit_eq_getLsbD]
  have hp := p.isLt
  have hq := q.isLt
  by_cases h : q = p
  · subst h; simp [setBit]
  · have hne : q.val ≠ p.val := fun e => h (Fin.ext e)
    rcases Nat.lt_or_gt_of_ne hne with hlt | hgt
    · simp [setBit, h, hlt]
    · have : ¬ q.val < p.val := by omega
      have h1 : q.val - p.val ≠ 0 := by omega
      simp [setBit, h, this, h1]

theorem tstBit_clrBit (b : Byte) (p q : Fin 8) : tstBit (clrBit b p) q = (decide (q ≠ p) && tstBit b q) := by
  rw [tstBit_eq_getLsbD, tstBit_eq_getLsbD]
  have hp := p.isLt
  have hq := q.isLt
  by_cases h : q = p
  · subst h; simp [clrBit]
  · have hne : q.val ≠ p.val := fun e => h (Fin.ext e)
    rcases Nat.lt_or_gt_of_ne hne with hlt | hgt
    · simp [clrBit, h, hlt]
    · have : ¬ q.val < p.val := by omega
      have h1 : q.val - p.val ≠ 0 := by omega
      simp [clrBit, h, this, h1]

theorem tstBit_withBit (b : Byte) (p q : Fin 8) (want : Bool) :
    tstBit (withBit b p want) q = if q = p then want else tstBit b q := by
  cases want <;> by_cases h : q = p <;> simp [withBit, tstBit_setBit, tstBit_clrBit, h]

/-- A byte is its eight bits. -/
theorem byte_ext {b c : Byte} (h : ∀ p : Fin 8, tstBit b p = tstBit c p) : b = c := by
  ext i hi
  have := h ⟨i, hi⟩
  rw [tstBit_eq_getLsbD, tstBit_eq_getLsbD] at this
  simpa [hi] using this

theorem tstBit_ff (p : Fin 8) : tstBit 0xFF#8 p = true := by
  revert p; decide

theorem stride_even (w : Nat) : stride w % 2 = 0 := by simp [stride]

theorem stride_covers (w : Nat) : w ≤ 8 * stride w := by unfold stride; omega

theorem stride_padding (w : Nat) : 8 * stride w ≤ w + 15 := by unfold stride; omega

theorem stride_pos {w : Nat} (h : 1 ≤ w) : 2 ≤ stride w := by unfold stride; omega

end Sys2Proof.Machine
end

