-- ==== Sys2Proof/Laws/Decode.lean ====
section
/-! SUPPORT. The fields of a request record and of a wire unit's first byte: what encoding puts there decoding finds there. -/

namespace Sys2Proof

@[simp] theorem recordOp_record (op : BitVec 4) (a b : S16) (c : Bool) : recordOp (record op a b c) = op := by
  unfold recordOp record
  ext i hi
  simp only [BitVec.getElem_extractLsb', BitVec.getLsbD_append]
  rw [if_pos (by omega)]
  simp [hi]

@[simp] theorem recordFst_record (op : BitVec 4) (a b : S16) (c : Bool) : recordFst (record op a b c) = a := by
  unfold recordFst record
  ext i hi
  simp only [BitVec.getElem_extractLsb', BitVec.getLsbD_append]
  rw [if_neg (by omega), if_pos (by omega)]
  simp [hi]

@[simp] theorem recordSnd_record (op : BitVec 4) (a b : S16) (c : Bool) : recordSnd (record op a b c) = b := by
  unfold recordSnd record
  ext i hi
  simp only [BitVec.getElem_extractLsb', BitVec.getLsbD_append]
  rw [if_neg (by omega), if_neg (by omega), if_pos (by omega), show 20 + i - 4 - 16 = i by omega]
  simp [hi]

@[simp] theorem recordBit_record (op : BitVec 4) (a b : S16) (c : Bool) : recordBit (record op a b c) = c := by
  unfold recordBit record
  simp only [BitVec.getLsbD_append]
  rw [if_neg (by omega), if_neg (by omega), if_neg (by omega)]
  cases c <;> rfl

/-- R90's fields of a unit's first byte. -/
theorem unitByte0_fields : ∀ (rhi : BitVec 5) (clr vcom wr : Bool),
    (unitByte0 rhi clr vcom wr).getLsbD 0 = wr ∧ (unitByte0 rhi clr vcom wr).getLsbD 1 = vcom ∧
    (unitByte0 rhi clr vcom wr).getLsbD 2 = clr ∧ (unitByte0 rhi clr vcom wr).extractLsb' 3 5 = rhi := by
  decide

/-- A byte is made of its R90 fields. -/
theorem byte_eq_unitByte0 : ∀ b : Byte,
    b = unitByte0 (b.extractLsb' 3 5) (b.getLsbD 2) (b.getLsbD 1) (b.getLsbD 0) := by
  decide

end Sys2Proof
end

