-- ==== Sys2Proof/Laws/Tracker.lean ====
section
/-! SUPPORT. The change tracker: every bit of a clean, a marked and a cleared tracker. -/

namespace Sys2Proof.Machine

@[simp] theorem Tracker.length_markRow (t : Tracker) (y : Nat) : (t.markRow y).length = t.length := by
  simp [Tracker.markRow]

@[simp] theorem Tracker.length_clearAll (t : Tracker) : t.clearAll.length = t.length := by
  simp [Tracker.clearAll]

@[simp] theorem Tracker.length_clean (h : Nat) : (Tracker.clean h).length = h + 1 := by
  simp [Tracker.clean]

@[simp] theorem Tracker.bit_clean (h i : Nat) : (Tracker.clean h).bit i = false := by
  unfold Tracker.bit Tracker.clean
  rw [List.getD_eq_getElem?_getD, List.getElem?_replicate]
  split <;> rfl

@[simp] theorem Tracker.bit_clearAll (t : Tracker) (i : Nat) : t.clearAll.bit i = false := by
  unfold Tracker.bit Tracker.clearAll
  rw [List.getD_eq_getElem?_getD, List.getElem?_map]
  cases t[i]? <;> rfl

/-- Setting one bit of the array. -/
theorem Tracker.bit_set {t : Tracker} {k : Nat} (hk : k < t.length) (i : Nat) :
    Tracker.bit (t.set k true) i = (decide (i = k) || t.bit i) := by
  unfold Tracker.bit
  rw [List.getD_eq_getElem?_getD, List.getD_eq_getElem?_getD, List.getElem?_set]
  by_cases h : k = i
  · subst h; simp [hk]
  · have : i ≠ k := fun e => h e.symm
    simp [h, this]

/-- A bit past the end of the array is 0. -/
theorem Tracker.bit_past {t : Tracker} {i : Nat} (h : t.length ≤ i) : t.bit i = false := by
  unfold Tracker.bit
  rw [List.getD_eq_getElem?_getD, List.getElem?_eq_none h]
  rfl

/-- The tracker's invariant is kept by clearing it. -/
theorem Tracker.Inv.clearAll {t : Tracker} {h : Nat} (hi : t.Inv h) : t.clearAll.Inv h :=
  ⟨by simp [hi.length], by simp⟩

theorem Tracker.clean_inv (h : Nat) : (Tracker.clean h).Inv h := ⟨by simp, by simp⟩

/-- MARK_ROW_DIRTY on a row of the display (R162), bit by bit. -/
theorem Tracker.bit_markRow {t : Tracker} {y : Nat} (hy : y + 1 < t.length) (i : Nat) :
    (t.markRow y).bit i = (decide (i = 0) || decide (i = y + 1) || t.bit i) := by
  unfold Tracker.markRow
  rw [Tracker.bit_set (by simpa using hy), Tracker.bit_set (by omega)]
  by_cases h0 : i = 0 <;> by_cases h1 : i = y + 1 <;> simp [h0, h1]

theorem Tracker.Inv.markRow {t : Tracker} {h y : Nat} (hi : t.Inv h) (hy : y < h) : (t.markRow y).Inv h := by
  have hl : y + 1 < t.length := by rw [hi.length]; omega
  refine ⟨by simp [hi.length], ?_⟩
  rw [Tracker.bit_markRow hl]
  simp only [decide_true, Bool.true_or, true_iff]
  exact ⟨y + 1, by omega, by omega, by rw [Tracker.bit_markRow hl]; simp⟩

end Sys2Proof.Machine
end

