-- ==== Sys2Proof/Laws/Transaction.lean ====
section
/-! SUPPORT. The interface primitives and the pieces of a transaction: everything an `Xfer` can do, and what a run of transport
calls leaves, with the answers they get (spec/43_frame_sequencer.md R190 to R192). -/

namespace Sys2Proof.Machine

/-! ### One transport call -/

theorem drawAnswer_eq (s : State) : drawAnswer s = (s.answerAt 0, s.afterCalls 1) := by
  obtain ⟨mw, di, cs, log, fa, re, pe, an, dr, de⟩ := s
  cases an with
  | nil => rfl
  | cons a rest => simp [drawAnswer, State.answerAt, State.afterCalls]

/-- Everything `Xfer` can do: it uses one answer, logs one event, and records the delivered count of a failure. -/
theorem xfer_eq (bs : List Byte) (s : State) :
    xfer bs s = match s.answerAt 0 with
      | .ok => (.ok, (s.afterCalls 1).logEvent (.tx bs .ok))
      | .err e n => (.err e, { (s.afterCalls 1).logEvent (.tx bs (.err e)) with
          delivered := s.delivered ++ [min n bs.length] }) := by
  unfold xfer
  rw [drawAnswer_eq]
  cases s.answerAt 0 <;> rfl

theorem xfer_ok {bs : List Byte} {s : State} (h : s.answerAt 0 = .ok) :
    xfer bs s = (.ok, (s.afterCalls 1).logEvent (.tx bs .ok)) := by
  rw [xfer_eq, h]

theorem xfer_err {bs : List Byte} {s : State} {e : TransportError} {n : Nat} (h : s.answerAt 0 = .err e n) :
    xfer bs s = (.err e, { (s.afterCalls 1).logEvent (.tx bs (.err e)) with
      delivered := s.delivered ++ [min n bs.length] }) := by
  rw [xfer_eq, h]

/-! ### The coming answers under the other updates -/

@[simp] theorem answerAt_logEvent (s : State) (e : Event) (k : Nat) : (s.logEvent e).answerAt k = s.answerAt k := rfl
@[simp] theorem answerAt_setDisplay (s : State) (d : Display) (k : Nat) : (s.setDisplay d).answerAt k = s.answerAt k := rfl
@[simp] theorem answerAt_select (s : State) (k : Nat) : (select s).answerAt k = s.answerAt k := rfl
@[simp] theorem answerAt_deselect (s : State) (k : Nat) : (deselect s).answerAt k = s.answerAt k := rfl

@[simp] theorem answerAt_afterCalls (s : State) (n k : Nat) : (s.afterCalls n).answerAt k = s.answerAt (n + k) := by
  unfold State.answerAt State.afterCalls
  simp only [List.getElem?_drop, List.length_drop]
  cases h : s.answers[n + k]? with
  | some a => rfl
  | none =>
    have : s.answers.length ≤ n + k := by simpa using h
    simp only []
    congr 1
    omega

@[simp] theorem afterCalls_zero (s : State) : s.afterCalls 0 = s := by
  cases s; simp [State.afterCalls]

theorem afterCalls_add (s : State) (m n : Nat) : (s.afterCalls m).afterCalls n = s.afterCalls (m + n) := by
  unfold State.afterCalls
  simp only [List.drop_drop, List.length_drop, State.mk.injEq, true_and, and_true]
  omega

/-! ### A list of transport calls -/

/-- Make the calls of a list one after another, stopping at the first error (R192). -/
def runCalls : List (List Byte) → State → XferResult × State
  | [], s => (.ok, s)
  | bs :: rest, s =>
    match xfer bs s with
    | (.err e, s) => (.err e, s)
    | (.ok, s) => runCalls rest s

theorem runCalls_append (a b : List (List Byte)) (s : State) :
    runCalls (a ++ b) s = match runCalls a s with
      | (.err e, s) => (.err e, s)
      | (.ok, s) => runCalls b s := by
  induction a generalizing s with
  | nil => rfl
  | cons bs a ih =>
    simp only [List.cons_append, runCalls]
    cases h : xfer bs s with
    | mk r s' => cases r with
      | ok => exact ih s'
      | err e => rfl

/-- A selected row is its two calls. -/
theorem sendLine_eq (h0 h1 : Byte) (data : List Byte) (s : State) :
    sendLine h0 h1 data s = runCalls [[h0, h1], data] s := by
  unfold sendLine
  simp only [runCalls]
  cases h : xfer [h0, h1] s with
  | mk r s' => cases r with
    | ok => simp only []; cases h2 : xfer data s' with
      | mk r2 s2 => cases r2 <;> rfl
    | err e => rfl

/-- RENDER's row loop makes the calls of the selected rows (R195). -/
theorem sendRows_eq (d : Display) (cmd : Byte) (ys : List Nat) (s : State) :
    sendRows d cmd ys s = runCalls
      ((ys.filter d.selected).flatMap fun y =>
        [[headerByte0 cmd (y + 1), headerByte1 (y + 1)], d.rowBytes y]) s := by
  induction ys generalizing s with
  | nil => rfl
  | cons y ys ih =>
    unfold sendRows
    by_cases hy : d.selected y = true
    · rw [if_pos hy, sendLine_eq, List.filter_cons_of_pos hy, List.flatMap_cons, runCalls_append]
      cases h : runCalls [[headerByte0 cmd (y + 1), headerByte1 (y + 1)], d.rowBytes y] s with
      | mk r s' => cases r with
        | ok => exact ih s'
        | err e => rfl
    · rw [if_neg hy, List.filter_cons_of_neg hy]
      exact ih s

/-- RENDER's full path is one run of its frame's calls between `Select()` and `Deselect()`. -/
theorem fullRender_eq (d : Display) (s : State) :
    fullRender d s = match runCalls d.renderCalls ((select s).setDisplay d.toggleV) with
      | (.err e, s) => (.errTransport e, s)
      | (.ok, s) => (.ok, (deselect s).setDisplay d.toggleV.clearTracker) := by
  unfold fullRender Display.renderCalls
  rw [sendRows_eq, runCalls_append]
  simp only [Display.selectedRows, headerOf]
  cases h : runCalls ((List.filter d.selected (List.range d.h)).flatMap fun y =>
        [[headerByte0 (renderCmd d.v) (y + 1), headerByte1 (y + 1)], d.rowBytes y]) ((select s).setDisplay d.toggleV) with
  | mk r s' => cases r with
    | err e => rfl
    | ok =>
      simp only [runCalls]
      cases h2 : xfer trailer s' with
      | mk r2 s2 => cases r2 <;> rfl

/-- The state after transport calls that all succeeded. -/
def State.sent (s : State) (calls : List (List Byte)) : State :=
  { s.afterCalls calls.length with log := s.log ++ okEvents calls }

@[simp] theorem sent_display (s : State) (calls : List (List Byte)) : (s.sent calls).display = s.display := rfl
@[simp] theorem sent_fault (s : State) (calls : List (List Byte)) : (s.sent calls).fault = s.fault := rfl
@[simp] theorem sent_cs (s : State) (calls : List (List Byte)) : (s.sent calls).cs = s.cs := rfl
@[simp] theorem sent_log (s : State) (calls : List (List Byte)) : (s.sent calls).log = s.log ++ okEvents calls := rfl
@[simp] theorem sent_responses (s : State) (calls : List (List Byte)) : (s.sent calls).responses = s.responses := rfl
@[simp] theorem answerAt_sent (s : State) (calls : List (List Byte)) (k : Nat) :
    (s.sent calls).answerAt k = s.answerAt (calls.length + k) := answerAt_afterCalls s calls.length k

/-- Calls that all succeed: each is logged, nothing else changes. -/
theorem runCalls_ok {calls : List (List Byte)} {s : State} (h : ∀ k, k < calls.length → s.answerAt k = .ok) :
    runCalls calls s = (.ok, s.sent calls) := by
  induction calls generalizing s with
  | nil => cases s; simp [runCalls, State.sent, okEvents, State.afterCalls]
  | cons bs calls ih =>
    have h0 : s.answerAt 0 = .ok := h 0 (by simp)
    simp only [runCalls, xfer_ok h0]
    rw [ih (s := (s.afterCalls 1).logEvent (.tx bs .ok)) fun k hk => by
      rw [answerAt_logEvent, answerAt_afterCalls]; exact h (1 + k) (by simp; omega)]
    refine Prod.ext rfl ?_
    have : (s.afterCalls 1).afterCalls calls.length = s.afterCalls (bs :: calls).length := by
      rw [afterCalls_add]; congr 1; simp; omega
    refine State.ext_fields rfl rfl rfl ?_ rfl rfl rfl ?_ ?_ rfl rfl
    · simp [okEvents]
    · have h1 := congrArg State.answers this; exact h1
    · have h1 := congrArg State.draws this; exact h1

/-- Calls of which one fails, the ones before it succeeding: the failing one is the last (R192). -/
theorem runCalls_err {calls : List (List Byte)} {s : State} {k : Nat} {bs : List Byte} {e : TransportError} {n : Nat}
    (hk : calls[k]? = some bs) (hok : ∀ j, j < k → s.answerAt j = .ok) (herr : s.answerAt k = .err e n) :
    runCalls calls s = (.err e, { s.afterCalls (k + 1) with
      log := s.log ++ okEvents (calls.take k) ++ [.tx bs (.err e)]
      delivered := s.delivered ++ [min n bs.length] }) := by
  induction k generalizing calls s with
  | zero =>
    cases calls with
    | nil => simp at hk
    | cons c calls =>
      simp only [List.getElem?_cons_zero, Option.some.injEq] at hk
      subst hk
      simp only [runCalls, xfer_err herr]
      refine Prod.ext rfl ?_
      refine State.ext_fields rfl rfl rfl ?_ rfl rfl rfl rfl rfl rfl rfl
      simp [okEvents]
  | succ k ih =>
    cases calls with
    | nil => simp at hk
    | cons c calls =>
      simp only [List.getElem?_cons_succ] at hk
      simp only [runCalls, xfer_ok (hok 0 (by omega))]
      rw [ih (s := (s.afterCalls 1).logEvent (.tx c .ok)) hk
        (fun j hj => by rw [answerAt_logEvent, answerAt_afterCalls]; exact hok (1 + j) (by omega))
        (by rw [answerAt_logEvent, answerAt_afterCalls, Nat.add_comm]; exact herr)]
      refine Prod.ext rfl ?_
      have : (s.afterCalls 1).afterCalls (k + 1) = s.afterCalls (k + 1 + 1) := by
        rw [afterCalls_add]; congr 1; omega
      refine State.ext_fields rfl rfl rfl ?_ rfl rfl rfl ?_ ?_ rfl rfl
      · simp [okEvents]
      · have h1 := congrArg State.answers this; exact h1
      · have h1 := congrArg State.draws this; exact h1

/-- Everything a run of calls can do: all succeed, or one fails after those before it succeeded. -/
theorem calls_ok_or_err (calls : List (List Byte)) (s : State) :
    (∀ k, k < calls.length → s.answerAt k = .ok) ∨
    ∃ k bs e n, calls[k]? = some bs ∧ (∀ j, j < k → s.answerAt j = .ok) ∧ s.answerAt k = .err e n := by
  induction calls generalizing s with
  | nil => exact .inl fun k hk => absurd hk (by simp)
  | cons c calls ih =>
    cases h0 : s.answerAt 0 with
    | err e n => exact .inr ⟨0, c, e, n, rfl, fun j hj => absurd hj (by omega), h0⟩
    | ok =>
      rcases ih (s.afterCalls 1) with h | ⟨k, bs, e, n, hk, hok, herr⟩
      · refine .inl fun k hk => ?_
        cases k with
        | zero => exact h0
        | succ k =>
          have := h k (by simpa using hk)
          rw [answerAt_afterCalls, Nat.add_comm] at this
          exact this
      · refine .inr ⟨k + 1, bs, e, n, by simpa using hk, fun j hj => ?_, ?_⟩
        · cases j with
          | zero => exact h0
          | succ j =>
            have := hok j (by omega)
            rw [answerAt_afterCalls, Nat.add_comm] at this
            exact this
        · rw [answerAt_afterCalls, Nat.add_comm] at herr
          exact herr

/-- The transaction of a two-byte frame that succeeds. -/
theorem shortTransaction_ok {d : Display} {frame : List Byte} {s : State} (h : s.answerAt 0 = .ok) :
    shortTransaction d frame s =
      (.ok, deselect ((((select s).afterCalls 1).logEvent (.tx frame .ok)).setDisplay d.toggleV)) := by
  unfold shortTransaction
  rw [xfer_ok (s := select s) h]

/-- The transaction of a two-byte frame that aborts. -/
theorem shortTransaction_err {d : Display} {frame : List Byte} {s : State} {e : TransportError} {n : Nat}
    (h : s.answerAt 0 = .err e n) :
    shortTransaction d frame s =
      (.errTransport e, { ((select s).afterCalls 1).logEvent (.tx frame (.err e)) with
        delivered := s.delivered ++ [min n frame.length] }) := by
  unfold shortTransaction
  rw [xfer_err (s := select s) h]
  rfl

end Sys2Proof.Machine
end

