-- ==== Sys2Proof/Laws/Exec.lean ====
section
/-! SUPPORT. Everything exec and step can do, said once: a proof about all instructions takes `exec_effect` (or `step_cases`)
apart and needs no unfolding of a meaning. Also the small lemmas of the log's views. -/

namespace Sys2Proof.Machine

/-! ### The views of a log -/

theorem failedCalls_append (a b : List Event) : failedCalls (a ++ b) = failedCalls a ++ failedCalls b := by
  induction a with
  | nil => rfl
  | cons e a ih => cases e with
    | tx bs r => cases r <;> simp [failedCalls, ih]
    | _ => simp [failedCalls, ih]

theorem failedCalls_okEvents (calls : List (List Byte)) : failedCalls (okEvents calls) = [] := by
  induction calls with
  | nil => rfl
  | cons c calls ih => simpa [okEvents, failedCalls] using ih

theorem csOfLog_append (a b : List Event) : csOfLog (a ++ b) = b.foldl csAfter (csOfLog a) := by simp [csOfLog]

theorem csAfter_okEvents (calls : List (List Byte)) (c : Bool) : (okEvents calls).foldl csAfter c = c := by
  induction calls with
  | nil => rfl
  | cons b calls ih => simpa [okEvents, csAfter] using ih

/-! ### Operands -/

theorem coord_of {v : S16} {c : Nat} (h : v.toInt = c) : coord v = c := by simp [coord, h]

theorem coordOk_iff {v : S16} {n : Nat} : coordOk v n = true ↔ 0 ≤ v.toInt ∧ v.toInt < n := by simp [coordOk]

theorem coord_lt {v : S16} {n : Nat} (h : coordOk v n = true) : coord v < n := by
  rw [coordOk_iff] at h; unfold coord; omega

/-! ### Transport calls and transactions -/

/-- Everything a run of calls can do (R192): all are sent, or it stops at the first error. -/
theorem runCalls_cases (calls : List (List Byte)) (s : State) :
    ((runCalls calls s).1 = .ok ∧ (runCalls calls s).2 = s.sent calls) ∨
    ∃ pre bs e n, (runCalls calls s).1 = .err e ∧ (∃ k, pre = calls.take k ∧ calls[k]? = some bs) ∧
      (runCalls calls s).2 = { s.afterCalls (pre.length + 1) with
        log := s.log ++ okEvents pre ++ [.tx bs (.err e)]
        delivered := s.delivered ++ [min n bs.length] } := by
  rcases calls_ok_or_err calls s with h | ⟨k, bs, e, n, hk, hok, herr⟩
  · left; rw [runCalls_ok h]; exact ⟨rfl, rfl⟩
  · right
    refine ⟨calls.take k, bs, e, n, ?_, ⟨k, rfl, hk⟩, ?_⟩
    · rw [runCalls_err hk hok herr]
    · rw [runCalls_err hk hok herr]
      have : (calls.take k).length = k := by
        have := (List.getElem?_eq_some_iff.mp hk).1
        simp; omega
      rw [this]


/-- `t` is `s` after a request's whole transaction of `calls` succeeded and left the display `d'` (R190). -/
def SentTransaction (d' : Display) (calls : List (List Byte)) (s t : State) : Prop :=
  t = { s.afterCalls calls.length with
    display := some d'
    cs := false
    log := s.log ++ [.sel] ++ okEvents calls ++ [.desel]
    responses := s.responses ++ [⟨.ok, none⟩] }

/-- `t` is `s` after a request's transaction failed at `bs`, the calls `pre` before it sent, the display left at `d'` (R192). -/
def AbortedTransaction (d' : Display) (pre : List (List Byte)) (bs : List Byte) (s t : State) : Prop :=
  ∃ e n, t = { s.afterCalls (pre.length + 1) with
    display := some d'
    cs := true
    log := s.log ++ [.sel] ++ okEvents pre ++ [.tx bs (.err e)]
    delivered := s.delivered ++ [min n bs.length]
    responses := s.responses ++ [⟨.errTransport e, none⟩] }

/-- Everything the transaction of a two-byte frame can do. -/
theorem shortTransaction_cases {d d0 : Display} {frame : List Byte} {s t : State}
    (h : finish (shortTransaction d frame s) = .next t) (hd : s.display = some d0) :
    SentTransaction d.toggleV [frame] s t ∨ AbortedTransaction d0 [] frame s t := by
  have h := (Host.Outcome.next.inj h).symm
  cases ha : s.answerAt 0 with
  | ok =>
    left; rw [h, shortTransaction_ok ha]
    refine State.ext_fields rfl rfl rfl ?_ rfl rfl rfl rfl rfl rfl rfl
    simp [okEvents]
  | err e n =>
    right; refine ⟨e, n, ?_⟩; rw [h, shortTransaction_err ha]
    refine State.ext_fields rfl ?_ rfl ?_ rfl rfl rfl rfl rfl rfl rfl
    · exact hd
    · simp [okEvents]

/-- Everything RENDER's full path can do (R195, R196). -/
theorem fullRender_cases {d : Display} {s t : State} (h : finish (fullRender d s) = .next t) :
    SentTransaction d.toggleV.clearTracker d.renderCalls s t ∨
    ∃ pre bs, (∃ k, pre = d.renderCalls.take k ∧ d.renderCalls[k]? = some bs) ∧
      AbortedTransaction d.toggleV pre bs s t := by
  have h := (Host.Outcome.next.inj h).symm
  rw [fullRender_eq] at h
  rcases runCalls_cases d.renderCalls ((select s).setDisplay d.toggleV) with ⟨h1, h2⟩ | ⟨pre, bs, e, n, h1, hk, h2⟩
  · left; unfold SentTransaction; rw [h]
    generalize runCalls d.renderCalls ((select s).setDisplay d.toggleV) = r at *
    obtain ⟨r1, r2⟩ := r
    simp only at h1 h2; subst h1 h2
    refine State.ext_fields rfl rfl rfl ?_ rfl rfl rfl rfl rfl rfl rfl
    simp
  · right; refine ⟨pre, bs, hk, e, n, ?_⟩; rw [h]
    generalize runCalls d.renderCalls ((select s).setDisplay d.toggleV) = r at *
    obtain ⟨r1, r2⟩ := r
    simp only at h1 h2; subst h1 h2
    refine State.ext_fields rfl rfl rfl ?_ rfl rfl rfl rfl rfl rfl rfl
    simp

/-! ### exec and step -/

/-- Everything `exec i s = .next t` can mean. -/
inductive Effect (i : Instr) (s : State) : State → Prop
  /-- NOT_CONFIGURED (R257). -/
  | unconfigured (h : s.display = none) (hi : ∀ w h f, i ≠ .configure w h f) :
      Effect i s (raiseFault .notConfigured s)
  /-- CONFIGURE, admitted operands (R131). -/
  | configured (w h : S16) (f : Bool) (hi : i = .configure w h f) (hok : configOk s.maxWidth w h = true) :
      Effect i s (respond .ok none (s.setDisplay (freshDisplay (coord w) (coord h) f)))
  /-- CONFIGURE, an operand out of range (R132). -/
  | configError (w h : S16) (f : Bool) (hi : i = .configure w h f) : Effect i s (respond .errConfig none s)
  /-- SET_PIXEL, a pixel that changes (R136). -/
  | pixelSet (x y : S16) (b : Bool) (d : Display) (hi : i = .setPixel x y b) (hd : s.display = some d)
      (hx : coordOk x d.w = true) (hy : coordOk y d.h = true) :
      Effect i s (respond .ok none
        (s.setDisplay ((d.writePixel (coord x) (coord y) (wantedBit b)).markRow (coord y))))
  /-- A response and nothing else: a query, an unchanged pixel, a coordinate out of range. -/
  | answered (st : Status) (v : Option Value) (d : Display) (hd : s.display = some d) (ht : isTransaction i = false)
      (hr : isRequest i = true) (hi : ∀ w h f, i ≠ .configure w h f)
      (herr : st = .errRange → (∃ x y b, i = .setPixel x y b) ∨ ∃ row, i = .isRowDirty row)
      (hv : v ≠ none → st = .ok ∧ (i = .size ∨ i = .isAnyDirty ∨ ∃ row, i = .isRowDirty row))
      (hst : st = .ok ∨ st = .errRange) : Effect i s (respond st v s)
  /-- CLEAR_BUFFER (R143). -/
  | bufferCleared (d : Display) (hi : i = .clearBuffer) (hd : s.display = some d) :
      Effect i s (respond .ok none (s.setDisplay d.clearBuffer))
  /-- HOLD, or RENDER with nothing dirty (R195, R202). -/
  | held (d : Display) (t : State) (hi : i = .hold ∨ i = .render) (hd : s.display = some d)
      (h : SentTransaction d.toggleV [holdFrame d.v] s t ∨ AbortedTransaction d [] (holdFrame d.v) s t) : Effect i s t
  /-- RENDER's full path (R195). -/
  | rendered (d : Display) (t : State) (hi : i = .render) (hd : s.display = some d)
      (hany : ∀ t, d.tracker = some t → t.testAny = true)
      (h : SentTransaction d.toggleV.clearTracker d.renderCalls s t ∨
        ∃ pre bs, (∃ k, pre = d.renderCalls.take k ∧ d.renderCalls[k]? = some bs) ∧
          AbortedTransaction d.toggleV pre bs s t) : Effect i s t
  /-- CLEAR_DISPLAY (R206). -/
  | displayCleared (d : Display) (t : State) (hi : i = .clearDisplay) (hd : s.display = some d)
      (h : SentTransaction d.toggleV [clearFrame d.v] s t ∨ AbortedTransaction d [] (clearFrame d.v) s t) :
      Effect i s t
  /-- CLEAR (R210). -/
  | cleared (d : Display) (t : State) (hi : i = .clear) (hd : s.display = some d)
      (h : SentTransaction d.clearBuffer.toggleV [clearFrame d.v] s t ∨
        AbortedTransaction d.clearBuffer [] (clearFrame d.v) s t) : Effect i s t
  /-- A wire unit (log 3). -/
  | unitSent (d : Display) (calls : List (List Byte)) (hi : isRequest i = false) (hd : s.display = some d) :
      Effect i s (runCalls calls s).2

/-- Everything exec can do when it answers a next state. -/
theorem exec_effect {i : Instr} {s t : State} (h : exec i s = .next t) : Effect i s t := by
  cases i with
  | configure w hh f =>
    simp only [exec, execConfigure] at h
    split at h <;> cases h
    · exact .configured w hh f rfl ‹_›
    · exact .configError w hh f rfl
  | setPixel x y b =>
    rcases requireConfigured_next h with ⟨hd, rfl⟩ | ⟨d, hd, h⟩
    · exact .unconfigured hd (by simp)
    · split at h
      · rename_i hc; simp only [Bool.and_eq_true] at hc
        split at h <;> cases h
        · exact .answered _ _ d hd rfl rfl (by simp) (by simp) (by simp) (.inl rfl)
        · exact .pixelSet x y b d rfl hd hc.1 hc.2
      · cases h; exact .answered _ _ d hd rfl rfl (by simp) (by simp) (by simp) (.inr rfl)
  | clearBuffer =>
    rcases requireConfigured_next h with ⟨hd, rfl⟩ | ⟨d, hd, h⟩
    · exact .unconfigured hd (by simp)
    · cases h; exact .bufferCleared d rfl hd
  | render =>
    rcases requireConfigured_next h with ⟨hd, rfl⟩ | ⟨d, hd, h⟩
    · exact .unconfigured hd (by simp)
    · by_cases hn : d.nothingDirty = true
      · rw [if_pos hn] at h
        exact .held d t (.inr rfl) hd (shortTransaction_cases h hd)
      · rw [if_neg hn] at h
        refine .rendered d t rfl hd (fun tr htr => ?_) (fullRender_cases h)
        simp [Display.nothingDirty, htr] at hn; exact hn
  | hold =>
    rcases requireConfigured_next h with ⟨hd, rfl⟩ | ⟨d, hd, h⟩
    · exact .unconfigured hd (by simp)
    · exact .held d t (.inl rfl) hd (shortTransaction_cases h hd)
  | clearDisplay =>
    rcases requireConfigured_next h with ⟨hd, rfl⟩ | ⟨d, hd, h⟩
    · exact .unconfigured hd (by simp)
    · exact .displayCleared d t rfl hd (shortTransaction_cases h hd)
  | clear =>
    rcases requireConfigured_next h with ⟨hd, rfl⟩ | ⟨d, hd, h⟩
    · exact .unconfigured hd (by simp)
    · refine .cleared d t rfl hd ?_
      rcases shortTransaction_cases (s := s.setDisplay d.clearBuffer) h rfl with h | ⟨e, n, h⟩
      · exact .inl h
      · exact .inr ⟨e, n, h⟩
  | size =>
    rcases requireConfigured_next h with ⟨hd, rfl⟩ | ⟨d, hd, h⟩
    · exact .unconfigured hd (by simp)
    · cases h; exact .answered _ _ d hd rfl rfl (by simp) (by simp) (by simp) (.inl rfl)
  | isRowDirty row =>
    rcases requireConfigured_next h with ⟨hd, rfl⟩ | ⟨d, hd, h⟩
    · exact .unconfigured hd (by simp)
    · split at h
      · split at h <;> cases h <;> exact .answered _ _ d hd rfl rfl (by simp) (by simp) (by simp) (.inl rfl)
      · cases h; exact .answered _ _ d hd rfl rfl (by simp) (by simp) (by simp) (.inr rfl)
  | isAnyDirty =>
    rcases requireConfigured_next h with ⟨hd, rfl⟩ | ⟨d, hd, h⟩
    · exact .unconfigured hd (by simp)
    · split at h <;> cases h <;> exact .answered _ _ d hd rfl rfl (by simp) (by simp) (by simp) (.inl rfl)
  | wireWriteLine rhi v rlo =>
    rcases requireConfigured_next h with ⟨hd, rfl⟩ | ⟨d, hd, h⟩
    · exact .unconfigured hd (by simp)
    · simp only at h; split at h <;> cases h
      rw [sendLine_eq]; exact .unitSent d _ rfl hd
  | wireHold v =>
    rcases requireConfigured_next h with ⟨hd, rfl⟩ | ⟨d, hd, h⟩
    · exact .unconfigured hd (by simp)
    · cases h
      have : (xfer (holdFrame v) s).2 = (runCalls [holdFrame v] s).2 := by
        simp only [runCalls]; cases hx : xfer (holdFrame v) s with | mk a b => cases a <;> rfl
      rw [this]; exact .unitSent d _ rfl hd
  | wireClear v =>
    rcases requireConfigured_next h with ⟨hd, rfl⟩ | ⟨d, hd, h⟩
    · exact .unconfigured hd (by simp)
    · cases h
      have : (xfer (clearFrame v) s).2 = (runCalls [clearFrame v] s).2 := by
        simp only [runCalls]; cases hx : xfer (clearFrame v) s with | mk a b => cases a <;> rfl
      rw [this]; exact .unitSent d _ rfl hd
  | wireTrailer =>
    rcases requireConfigured_next h with ⟨hd, rfl⟩ | ⟨d, hd, h⟩
    · exact .unconfigured hd (by simp)
    · cases h
      have : (xfer trailer s).2 = (runCalls [trailer] s).2 := by
        simp only [runCalls]; cases hx : xfer trailer s with | mk a b => cases a <;> rfl
      rw [this]; exact .unitSent d _ rfl hd

/-- Everything step can do when it answers a next state: run the bench's wire unit, wait, raise a fault at the port, deselect,
or run a request. -/
theorem step_cases {s t : State} (h : step s = .next t) :
    s.fault = none ∧
    ((∃ u i, s.bench = some u ∧ decode (.unit u.place u.b0 u.b1) = .ok i ∧ exec i { s with bench := none } = .next t) ∨
     (s.bench = none ∧ ((s.pending = [] ∧ t = s) ∨ ∃ m rest, s.pending = m :: rest ∧
      ((∃ k, t = raiseFault k { s with pending := rest }) ∨ t = hostDeselect { s with pending := rest } ∨
        ∃ r i, m = .request r false ∧ decode (.request r) = .ok i ∧ exec i { s with pending := rest } = .next t)))) := by
  unfold step accept at h
  cases hf : s.fault with
  | some k => simp only [hf] at h; cases h
  | none =>
    refine ⟨rfl, ?_⟩
    cases hb : s.bench with
    | some u =>
      left
      simp only [hf, hb, acceptUnit] at h
      cases hd : decode (.unit u.place u.b0 u.b1) with
      | ok i => rw [hd] at h; exact ⟨u, i, rfl, hd, h⟩
      | error e => rw [hd] at h; cases h
    | none =>
      refine .inr ⟨rfl, ?_⟩
      cases hp : s.pending with
      | nil => simp only [hf, hb, hp] at h; cases h; exact .inl ⟨rfl, rfl⟩
      | cons m rest =>
        refine .inr ⟨m, rest, rfl, ?_⟩
        simp only [hf, hb, hp, acceptMove] at h
        cases m with
        | request r ov =>
          simp only [acceptRequest] at h
          cases ov
          · simp only [Bool.false_eq_true, if_false] at h
            cases hd : decode (.request r) with
            | ok i => rw [hd] at h; exact .inr (.inr ⟨r, i, rfl, hd, h⟩)
            | error e => rw [hd] at h; cases h; exact .inl ⟨_, rfl⟩
          · cases h; exact .inl ⟨_, rfl⟩
        | deselect => cases h; exact .inr (.inl rfl)
        | foreignDrive c => cases h; exact .inl ⟨_, rfl⟩

end Sys2Proof.Machine
end

