-- ==== Sys2Proof/Laws/Memory.lean ====
section
/-! SUPPORT. The pixel buffer as a memory: reading what was written, and the canonical form. -/

namespace Sys2Proof.Machine

@[simp] theorem Memory.read_nil (a : Nat) : Memory.read [] a = Memory.unlisted := rfl

@[simp] theorem Memory.wf_nil : Memory.wf [] = true := rfl

theorem Memory.wfFrom_cons {lo k : Nat} {b : Byte} {m : Memory} :
    Memory.wfFrom lo ((k, b) :: m) = true ↔ lo ≤ k ∧ b ≠ Memory.unlisted ∧ Memory.wfFrom (k + 1) m = true := by
  simp [Memory.wfFrom, and_assoc]

theorem Memory.wfFrom_weaken {lo lo' : Nat} {m : Memory} (h : Memory.wfFrom lo m = true) (hle : lo' ≤ lo) :
    Memory.wfFrom lo' m = true := by
  cases m with
  | nil => rfl
  | cons c m =>
    obtain ⟨h1, h2, h3⟩ := Memory.wfFrom_cons.mp h
    exact Memory.wfFrom_cons.mpr ⟨by omega, h2, h3⟩

/-- Below its lower bound a canonical memory lists nothing. -/
theorem Memory.read_below {lo : Nat} {m : Memory} (h : Memory.wfFrom lo m = true) {a : Nat} (ha : a < lo) :
    m.read a = Memory.unlisted := by
  induction m generalizing lo with
  | nil => rfl
  | cons c m ih =>
    obtain ⟨k, b⟩ := c
    obtain ⟨h1, _, h3⟩ := Memory.wfFrom_cons.mp h
    have : a ≠ k := by omega
    simp only [Memory.read, if_neg this]
    exact ih h3 (by omega)

theorem Memory.read_push {a : Nat} {b : Byte} {m : Memory} (h : Memory.wfFrom (a + 1) m = true) (c : Nat) :
    (Memory.push a b m).read c = if c = a then b else m.read c := by
  unfold Memory.push
  split
  · rename_i hb
    split
    · rename_i hc; subst hc; rw [hb]; exact Memory.read_below h (by omega)
    · rfl
  · rfl

theorem Memory.wfFrom_push {lo a : Nat} {b : Byte} {m : Memory} (hlo : lo ≤ a) (h : Memory.wfFrom (a + 1) m = true) :
    Memory.wfFrom lo (Memory.push a b m) = true := by
  unfold Memory.push
  split
  · exact Memory.wfFrom_weaken h (by omega)
  · rename_i hb; exact Memory.wfFrom_cons.mpr ⟨hlo, hb, h⟩

/-- A listed byte of a pushed memory is the pushed one or was listed before. -/
theorem Memory.mem_push {a : Nat} {b : Byte} {m : Memory} {c : Host.Cell} (h : c ∈ Memory.push a b m) :
    c.1 = a ∨ c ∈ m := by
  unfold Memory.push at h
  split at h
  · exact .inr h
  · rcases List.mem_cons.mp h with rfl | h
    · exact .inl rfl
    · exact .inr h

/-- The byte read after a write: the written one at its address, every other address as before. -/
theorem Memory.read_write_from {lo : Nat} {m : Memory} (h : Memory.wfFrom lo m = true) (a : Nat) (b : Byte) (c : Nat) :
    (m.write a b).read c = if c = a then b else m.read c := by
  induction m generalizing lo with
  | nil => exact Memory.read_push rfl c
  | cons e m ih =>
    obtain ⟨k, x⟩ := e
    obtain ⟨_, hx, h3⟩ := Memory.wfFrom_cons.mp h
    unfold Memory.write
    split
    · rename_i hak
      exact Memory.read_push (Memory.wfFrom_cons.mpr ⟨hak, hx, h3⟩) c
    · split
      · rename_i hak
        subst hak
        rw [Memory.read_push h3]
        by_cases hc : c = a <;> simp [hc, Memory.read]
      · rename_i _ hne
        by_cases hck : c = k
        · subst hck
          have : c ≠ a := fun e => hne e.symm
          simp [Memory.read, this]
        · simp only [Memory.read, if_neg hck]
          exact ih h3

theorem Memory.read_write {m : Memory} (h : m.wf = true) (a : Nat) (b : Byte) (c : Nat) :
    (m.write a b).read c = if c = a then b else m.read c := Memory.read_write_from h a b c

theorem Memory.wfFrom_write {lo : Nat} {m : Memory} (h : Memory.wfFrom lo m = true) {a : Nat} (ha : lo ≤ a) (b : Byte) :
    Memory.wfFrom lo (m.write a b) = true := by
  induction m generalizing lo with
  | nil => exact Memory.wfFrom_push ha rfl
  | cons e m ih =>
    obtain ⟨k, x⟩ := e
    obtain ⟨h1, hx, h3⟩ := Memory.wfFrom_cons.mp h
    unfold Memory.write
    split
    · rename_i hak
      exact Memory.wfFrom_push ha (Memory.wfFrom_cons.mpr ⟨hak, hx, h3⟩)
    · split
      · rename_i hak
        subst hak
        exact Memory.wfFrom_push ha h3
      · exact Memory.wfFrom_cons.mpr ⟨h1, hx, ih h3 (by omega)⟩

/-- Every memory operation keeps the canonical form: a write does. -/
theorem Memory.wf_write {m : Memory} (h : m.wf = true) (a : Nat) (b : Byte) : (m.write a b).wf = true :=
  Memory.wfFrom_write h (Nat.zero_le a) b

/-- A write touches no other address: every listed address is the written one or was listed before. -/
theorem Memory.mem_write {m : Memory} {a : Nat} {b : Byte} {c : Host.Cell} (h : c ∈ m.write a b) : c.1 = a ∨ c ∈ m := by
  induction m with
  | nil => exact Memory.mem_push h
  | cons e m ih =>
    obtain ⟨k, x⟩ := e
    unfold Memory.write at h
    split at h
    · exact Memory.mem_push h
    · split at h
      · rcases Memory.mem_push h with h | h
        · exact .inl h
        · exact .inr (List.mem_cons_of_mem _ h)
      · rcases List.mem_cons.mp h with rfl | h
        · exact .inr (List.mem_cons_self ..)
        · rcases ih h with h | h
          · exact .inl h
          · exact .inr (List.mem_cons_of_mem _ h)

theorem Memory.readRange_length (m : Memory) (a n : Nat) : (m.readRange a n).length = n := by
  induction n generalizing a with
  | zero => rfl
  | succ n ih => simp [Memory.readRange, ih]

theorem Memory.readRange_eq_map (m : Memory) (a n : Nat) :
    m.readRange a n = (List.range n).map fun k => m.read (a + k) := by
  induction n generalizing a with
  | zero => rfl
  | succ n ih =>
    rw [Memory.readRange, ih, List.range_succ_eq_map]
    simp only [Nat.add_zero, List.map_cons, List.map_map, List.cons.injEq, true_and]
    refine List.map_congr_left fun k _ => ?_
    simp only [Function.comp_apply, Nat.succ_eq_add_one]
    congr 1
    omega

end Sys2Proof.Machine
end

