-- ==== Sys2Proof/Laws/PerInstr.lean ====
section
/-! SUPPORT. Statements made per instruction. `PortOf`: an instruction's code is a record of the request port exactly for the
ten requests (spec/30_encoding.md R81), and a wire unit for the others (R86 to R89). -/

namespace Sys2Proof.Laws.PortOf

def Statement (i : Instr) : Prop := Sys2Proof.Machine.isRequest i = true ↔ ∃ r, encode i = .request r

theorem configure (w h : S16) (d : Bool) : Statement (.configure w h d) := ⟨fun _ => ⟨_, rfl⟩, fun _ => rfl⟩
theorem setPixel (x y : S16) (b : Bool) : Statement (.setPixel x y b) := ⟨fun _ => ⟨_, rfl⟩, fun _ => rfl⟩
theorem clearBuffer : Statement .clearBuffer := ⟨fun _ => ⟨_, rfl⟩, fun _ => rfl⟩
theorem render : Statement .render := ⟨fun _ => ⟨_, rfl⟩, fun _ => rfl⟩
theorem hold : Statement .hold := ⟨fun _ => ⟨_, rfl⟩, fun _ => rfl⟩
theorem clearDisplay : Statement .clearDisplay := ⟨fun _ => ⟨_, rfl⟩, fun _ => rfl⟩
theorem clear : Statement .clear := ⟨fun _ => ⟨_, rfl⟩, fun _ => rfl⟩
theorem size : Statement .size := ⟨fun _ => ⟨_, rfl⟩, fun _ => rfl⟩
theorem isRowDirty (row : S16) : Statement (.isRowDirty row) := ⟨fun _ => ⟨_, rfl⟩, fun _ => rfl⟩
theorem isAnyDirty : Statement .isAnyDirty := ⟨fun _ => ⟨_, rfl⟩, fun _ => rfl⟩
theorem wireWriteLine (rhi : BitVec 5) (v : Bool) (rlo : Byte) : Statement (.wireWriteLine rhi v rlo) :=
  ⟨fun h => (by cases h), fun ⟨_, h⟩ => (by cases h)⟩
theorem wireHold (v : Bool) : Statement (.wireHold v) := ⟨fun h => (by cases h), fun ⟨_, h⟩ => (by cases h)⟩
theorem wireClear (v : Bool) : Statement (.wireClear v) := ⟨fun h => (by cases h), fun ⟨_, h⟩ => (by cases h)⟩
theorem wireTrailer : Statement .wireTrailer := ⟨fun h => (by cases h), fun ⟨_, h⟩ => (by cases h)⟩

end Sys2Proof.Laws.PortOf
end

