-- ==== Sys2Proof/Machine/Text.lean ====
section
/-! DEFINITION. The textual syntax of requests (spec/30_encoding.md R84): one request a line, operands decimal or `0x`
hexadecimal integers separated by commas, `;` starts a comment. White space around the parts is free (log 20). -/

namespace Sys2Proof.Machine

def isBlank (c : Char) : Bool := c == ' ' || c == '\t'

/-- Without the comment. -/
def withoutComment (cs : List Char) : List Char := cs.takeWhile (· != ';')

/-- Without white space at either end. -/
def trimmed (cs : List Char) : List Char :=
  ((cs.dropWhile isBlank).reverse.dropWhile isBlank).reverse

/-- The parts between commas. -/
def splitCommas : List Char → List (List Char)
  | [] => [[]]
  | c :: cs =>
    if c == ',' then [] :: splitCommas cs
    else
      match splitCommas cs with
      | [] => [[c]]
      | part :: parts => (c :: part) :: parts

/-- A digit's value in a base up to 16. -/
def digitValue (base : Nat) (c : Char) : Option Nat :=
  let v :=
    if '0' ≤ c ∧ c ≤ '9' then c.toNat - 48
    else if 'a' ≤ c ∧ c ≤ 'f' then c.toNat - 87
    else if 'A' ≤ c ∧ c ≤ 'F' then c.toNat - 55
    else base
  if v < base then some v else none

/-- The number a digit string stands for, after the digits already read. -/
def digitsValue (base : Nat) : List Char → Nat → Option Nat
  | [], acc => some acc
  | c :: cs, acc =>
    match digitValue base c with
    | some v => digitsValue base cs (acc * base + v)
    | none => none

/-- A natural number, decimal or `0x` hexadecimal. -/
def natural : List Char → Option Nat
  | [] => none
  | '0' :: 'x' :: [] => none
  | '0' :: 'x' :: cs => digitsValue 16 cs 0
  | cs => digitsValue 10 cs 0

/-- An integer. -/
def integer : List Char → Option Int
  | '-' :: cs => (natural cs).map fun n => -(n : Int)
  | cs => (natural cs).map fun n => (n : Int)

/-- An `s16` operand (R81); a value outside its range cannot be written down (R82). -/
def s16Operand (cs : List Char) : Option S16 :=
  match integer cs with
  | some v => if -32768 ≤ v ∧ v ≤ 32767 then some (BitVec.ofInt 16 v) else none
  | none => none

/-- A `bit` operand (R81). -/
def bitOperand (cs : List Char) : Option Bool :=
  match integer cs with
  | some v => if v = 0 then some false else if v = 1 then some true else none
  | none => none

/-- The request a mnemonic and its operands stand for (R84). -/
def requestOf (mnemonic : List Char) (operands : List (List Char)) : Option Instr :=
  match operands with
  | [] =>
    if mnemonic = "CLEAR_BUFFER".toList then some .clearBuffer
    else if mnemonic = "RENDER".toList then some .render
    else if mnemonic = "HOLD".toList then some .hold
    else if mnemonic = "CLEAR_DISPLAY".toList then some .clearDisplay
    else if mnemonic = "CLEAR".toList then some .clear
    else if mnemonic = "SIZE".toList then some .size
    else if mnemonic = "IS_ANY_DIRTY".toList then some .isAnyDirty
    else none
  | [row] => if mnemonic = "IS_ROW_DIRTY".toList then (s16Operand row).map .isRowDirty else none
  | [a, b, c] =>
    match s16Operand a, s16Operand b, bitOperand c with
    | some a, some b, some c =>
      if mnemonic = "CONFIGURE".toList then some (.configure a b c)
      else if mnemonic = "SET_PIXEL".toList then some (.setPixel a b c)
      else none
    | _, _, _ => none
  | _ => none

/-- One line of R84's notation. -/
def parseRequest (line : List Char) : Option Instr :=
  let body := trimmed (withoutComment line)
  let mnemonic := body.takeWhile (! isBlank ·)
  let rest := trimmed (body.drop mnemonic.length)
  requestOf mnemonic (if rest.isEmpty then [] else (splitCommas rest).map trimmed)

end Sys2Proof.Machine
end

