-- ==== Sys2Proof/Tests/Slice0.lean ====
section
/-! SUPPORT. Tests: expected results from spec/95_test_vectors.md (V-… names) and the tables of spec/30_encoding.md; and for every
statement of Obligations.lean that has hypotheses, a concrete state and operands that meet them all (`witness_…`). -/

namespace Sys2Proof.Tests

open Sys2Proof Sys2Proof.Machine

/-! ### Helpers -/

/-- A configured state of an instance with MAX_WIDTH = 400, with the transport's coming answers. -/
def at_ (d : Display) (answers : List Answer := []) : State :=
  { State.reset with maxWidth := 400, display := some d, answers := answers }

/-- An unconfigured state of that instance. -/
def off : State := { State.reset with maxWidth := 400 }

/-- A display with every pixel white, nothing marked, `V = 1`. -/
def white (w h : Nat) (diff : Bool) : Display := freshDisplay w h diff

/-- `16×3`, `DIFF = 1`, row 1 marked and `B[2] = 0xFB`: V-FS5's display. -/
def marked : Display := { white 16 3 true with buf := [(2, 0xFB)], tracker := some [true, false, true, false] }

/-- The state a next outcome holds, checked. -/
def nextIs (o : Host.Outcome State Fault Refusal) (p : State → Bool) : Bool :=
  match o with
  | .next t => p t
  | .fault _ => false
  | .refused _ => false

/-- The displayed part of a next state, checked. -/
def shows (o : Host.Outcome State Fault Refusal) (p : Display → Bool) : Bool :=
  nextIs o fun t => match t.display with
    | some d => p d
    | none => false

/-- The last response of a next state. -/
def answersWith (o : Host.Outcome State Fault Refusal) (st : Status) (v : Option Value) : Bool :=
  nextIs o fun t => decide (t.responses.getLast? = some ⟨st, v⟩)

/-! ### WellFormed: the ill-formed terms each check refuses -/

theorem test_wf_refuses_row_index_zero : (Instr.wireWriteLine 0 true 0).wf = false := by decide
theorem test_wf_refuses_rhi_above_7 : (Instr.wireWriteLine 8 true 1).wf = false := by decide
theorem test_wf_admits_row_2047 : (Instr.wireWriteLine 7 true 0xFF).wf = true := by decide

/-! ### Decoding words written out from the spec's encodings (R81, R86 to R90) -/

theorem test_decode_configure :
    decodeTableWord 40 (0x1 + 160 * 2 ^ 4 + 68 * 2 ^ 20 + 2 ^ 36) = some (.configure 160 68 true) := by decide
theorem test_decode_setPixel :
    decodeTableWord 40 (0x2 + 0xFFFF * 2 ^ 4 + 5 * 2 ^ 20) = some (.setPixel (-1) 5 false) := by decide
theorem test_decode_clearBuffer : decodeTableWord 8 0x3 = some .clearBuffer := by decide
theorem test_decode_render : decodeTableWord 8 0x4 = some .render := by decide
theorem test_decode_hold : decodeTableWord 8 0x5 = some .hold := by decide
theorem test_decode_clearDisplay : decodeTableWord 8 0x6 = some .clearDisplay := by decide
theorem test_decode_clear : decodeTableWord 8 0x7 = some .clear := by decide
theorem test_decode_size : decodeTableWord 8 0x8 = some .size := by decide
theorem test_decode_isRowDirty : decodeTableWord 40 (0x9 + 67 * 2 ^ 4) = some (.isRowDirty 67) := by decide
theorem test_decode_isAnyDirty : decodeTableWord 8 0xA = some .isAnyDirty := by decide
theorem test_decode_unassigned : decodeTableWord 8 0x0 = none ∧ decodeTableWord 8 0xB = none ∧ decodeTableWord 8 0xF = none := by
  decide
/-- `[0x1B, 0xE8]`: RHI = 3, V = 1, r = 1000 (95 section 2, decoding check). -/
theorem test_decode_wireWriteLine :
    decodeTableWord 16 0x1BE8 = some (.wireWriteLine 3 true 0xE8) ∧ rowIndexOf 3 0xE8 = 1000 := by decide
theorem test_decode_wireHold : decodeTableWord 16 0x0200 = some (.wireHold true) := by decide
theorem test_decode_wireClear : decodeTableWord 16 0x0600 = some (.wireClear true) := by decide
/-- The trailer is `[0, 0]` after a row (R87, R93). -/
theorem test_decode_wireTrailer : decode (.unit .afterRow 0x00 0x00) = .ok .wireTrailer := by decide
/-- 30 R94: write and clear together. -/
theorem test_decode_write_and_clear : decodeTableWord 16 0x0501 = none := by decide

/-! ### The request text (R84) -/

theorem test_text_setPixel : parseRequest "SET_PIXEL -1, 0x10 ,1 ; note".toList = some (.setPixel (-1) 16 true) := by decide
theorem test_text_refuses_range : parseRequest "IS_ROW_DIRTY 32768".toList = none := by decide

/-! ### Bit utilities -/

theorem test_bit_functions : setBit 0x00 3 = 0x08#8 ∧ clrBit 0xFF 7 = 0x7F#8 ∧ tstBit 0x80 7 = true ∧ tstBit 0xFE 0 = false := by
  decide
theorem test_bflen : [1, 8, 9, 69, 301, 535, 2048].map bflen = [1, 1, 2, 9, 38, 67, 256] := by decide
theorem test_stride : [1, 15, 16, 17, 33, 144, 160, 184, 400].map stride = [2, 2, 2, 4, 6, 18, 20, 24, 50] := by decide
/-- The storage bytes after marking row 6, 7, 9 of ten (95 section 2, Tracker). -/
theorem test_tracker_storage :
    ((Tracker.clean 10).markRow 6).storage = [0x81#8, 0x00#8] ∧ ((Tracker.clean 10).markRow 7).storage = [0x01#8, 0x01#8] ∧
    ((Tracker.clean 10).markRow 9).storage = [0x01#8, 0x04#8] := by decide

/-- The codes of 60 R250. -/
theorem test_status_codes : [Status.ok, .errTransport 7, .errConfig, .errRange].map Status.code = [0, 1, 2, 3] := by decide

/-! ### CONFIGURE -/

/-- V-CF6 in small: reconfiguration whitens, cleans the tracker and restarts V. -/
theorem test_configure_reconfigures :
    shows (exec (.configure 10 2 true) (at_ { marked with v := false })) (fun d =>
      decide (d.w = 10 ∧ d.h = 2 ∧ d.buf = [] ∧ d.tracker = some [false, false, false] ∧ d.v = true)) = true := by decide
/-- V-CF7: an error changes nothing. -/
theorem test_configure_error :
    nextIs (exec (.configure 0 3 true) (at_ { marked with v := false })) (fun t =>
      decide (t = { at_ { marked with v := false } with responses := [⟨.errConfig, none⟩] })) = true := by decide

/-! ### SET_PIXEL -/

/-- V-SP2: `B[41]` becomes 0xDF, `T[0]` and `T[3]` are set. -/
theorem test_setPixel_13_2 :
    shows (exec (.setPixel 13 2 true) (at_ (white 160 68 true))) (fun d =>
      decide (d.buf = [(41, 0xDF#8)] ∧ d.tracker.map (fun t => (t.take 5)) = some [true, false, false, true, false])) = true := by
  decide
/-- V-SP12: the padding bits of `B[1]` stay 1. -/
theorem test_setPixel_keeps_padding :
    shows (exec (.setPixel 9 0 true) (at_ (white 10 1 true))) (fun d => decide (d.buf = [(1, 0xFD#8)])) = true := by decide

/-! ### CLEAR_BUFFER, SIZE, the queries -/

/-- V-CB1: black at (3,1). -/
theorem test_clearBuffer_marks :
    shows (exec .clearBuffer (at_ { white 16 3 true with buf := [(2, 0xF7)] })) (fun d =>
      decide (d.buf = [] ∧ d.tracker.map Tracker.storage = some [0x05#8])) = true := by decide
/-- V-CB2: a row that changed back keeps its mark, and no mark is new. -/
theorem test_clearBuffer_keeps_marks :
    shows (exec .clearBuffer (at_ { white 16 3 true with tracker := some [true, true, false, false] })) (fun d =>
      decide (d.tracker = some [true, true, false, false])) = true := by decide
/-- V-EX4. -/
theorem test_size : answersWith (exec .size (at_ (white 184 38 false))) .ok (some (.size 184 38)) = true := by decide
/-- V-EX2. -/
theorem test_size_unconfigured : nextIs (exec .size off) (fun t => decide (t.fault = some .notConfigured)) = true := by decide
theorem test_isRowDirty :
    answersWith (exec (.isRowDirty 1) (at_ marked)) .ok (some (.bit true)) = true ∧
    answersWith (exec (.isRowDirty 2) (at_ marked)) .ok (some (.bit false)) = true := by decide
/-- V-TQ6. -/
theorem test_isRowDirty_without_tracker :
    answersWith (exec (.isRowDirty 1) (at_ (white 16 2 false))) .ok (some (.bit true)) = true := by decide
/-- V-TQ1, V-TQ4, V-TQ7. -/
theorem test_isAnyDirty :
    answersWith (exec .isAnyDirty (at_ (white 16 3 true))) .ok (some (.bit false)) = true ∧
    answersWith (exec .isAnyDirty (at_ marked)) .ok (some (.bit true)) = true ∧
    answersWith (exec .isAnyDirty (at_ (white 16 2 false))) .ok (some (.bit true)) = true := by decide

/-! ### The transactions -/

/-- V-FS2: both rows of a display without diffing. -/
theorem test_render_sends_every_row :
    nextIs (exec .render (at_ (white 16 2 false) [.ok, .ok, .ok, .ok, .ok])) (fun t =>
      decide (t.log = [.sel, .tx [0x03, 0x01] .ok, .tx [0xFF, 0xFF] .ok, .tx [0x03, 0x02] .ok, .tx [0xFF, 0xFF] .ok,
        .tx [0x00, 0x00] .ok, .desel] ∧ t.display.map Display.v = some false ∧ t.cs = false)) = true := by decide
/-- V-FS5: the second transfer fails; V is toggled, select stays asserted, the tracker is kept. -/
theorem test_render_aborts :
    nextIs (exec .render (at_ marked [.ok, .err 7 1])) (fun t =>
      decide (t.log = [.sel, .tx [0x03, 0x02] .ok, .tx [0xFB, 0xFF] (.err 7)] ∧ t.cs = true ∧ t.delivered = [1] ∧
        t.display = some { marked with v := false } ∧ t.responses = [⟨.errTransport 7, none⟩])) = true := by decide
/-- V-FS3. -/
theorem test_hold :
    nextIs (exec .hold (at_ marked [.ok])) (fun t =>
      decide (t.log = [.sel, .tx [0x02, 0x00] .ok, .desel] ∧ t.display = some { marked with v := false })) = true := by decide
/-- V-FS6. -/
theorem test_hold_aborts :
    nextIs (exec .hold (at_ marked [.err 7 0])) (fun t =>
      decide (t.log = [.sel, .tx [0x02, 0x00] (.err 7)] ∧ t.display = some marked ∧ t.cs = true)) = true := by decide
/-- V-FS4. -/
theorem test_clearDisplay :
    nextIs (exec .clearDisplay (at_ { marked with v := false } [.ok])) (fun t =>
      decide (t.log = [.sel, .tx [0x04, 0x00] .ok, .desel] ∧ t.display = some marked)) = true := by decide
/-- V-FS8: the buffer is white and marked, V is kept. -/
theorem test_clear_aborts :
    nextIs (exec .clear (at_ { white 16 3 true with buf := [(4, 0xFE)] } [.err 7 2])) (fun t =>
      decide (t.log = [.sel, .tx [0x06, 0x00] (.err 7)] ∧ t.cs = true ∧
        t.display = some { white 16 3 true with tracker := some [true, false, false, true] })) = true := by decide
/-- P2 step 7. -/
theorem test_clear :
    nextIs (exec .clear (at_ { white 16 2 false with buf := [(0, 0xFE), (3, 0x7F)] } [.ok])) (fun t =>
      decide (t.log = [.sel, .tx [0x06, 0x00] .ok, .desel] ∧
        t.display = some { white 16 2 false with v := false })) = true := by decide

/-! ### The wire units -/

set_option maxRecDepth 4000 in
theorem test_wireWriteLine :
    nextIs (exec (.wireWriteLine 0 true 2) (at_ marked [.ok, .ok])) (fun t =>
      decide (t.log = [.tx [0x03, 0x02] .ok, .tx [0xFB, 0xFF] .ok] ∧ t.display = some marked)) = true := by decide
theorem test_wireHold : nextIs (exec (.wireHold true) (at_ marked [.ok])) (fun t => decide (t.log = [.tx [0x02, 0x00] .ok])) = true := by
  decide
theorem test_wireClear : nextIs (exec (.wireClear false) (at_ marked [.ok])) (fun t => decide (t.log = [.tx [0x04, 0x00] .ok])) = true := by
  decide
theorem test_wireTrailer : nextIs (exec .wireTrailer (at_ marked [.ok])) (fun t => decide (t.log = [.tx [0x00, 0x00] .ok])) = true := by
  decide

/-! ### The step -/

/-- V-EX1. -/
theorem test_step_illegalOp :
    nextIs (step { off with pending := [.request 0xC false] }) (fun t =>
      decide (t.fault = some .illegalOp ∧ t.log = [] ∧ t.responses = [])) = true := by decide
/-- V-EX3: NOT_CONFIGURED before the range check. -/
theorem test_step_notConfigured :
    nextIs (step { off with pending := [.request (record 0x2 (-5) (-5) true) false] }) (fun t =>
      decide (t.fault = some .notConfigured ∧ t.responses = [])) = true := by decide
/-- 70 R294: the pin driven by another thread during a transaction. -/
theorem test_step_foreignDrive :
    nextIs (step { at_ marked with pending := [.foreignDrive .pin] }) (fun t =>
      decide (t.fault = some .concurrentAccess ∧ t.log = [] ∧ t.display = some marked)) = true := by decide
/-- A wire unit on the bench runs before the host's next move, which stays. -/
theorem test_step_bench :
    nextIs (step { at_ marked [.ok] with bench := some ⟨.opensWindow, 0x06, 0x00⟩, pending := [.deselect] }) (fun t =>
      decide (t.log = [.tx [0x06, 0x00] .ok] ∧ t.bench = none ∧ t.pending = [.deselect])) = true := by decide
theorem test_withFetchWord_runs_first :
    step ((at_ marked [.ok]).withFetchWord 8 0x5) = exec .hold (at_ marked [.ok]) := rfl

/-! ### Witnesses: the hypotheses of each statement can be met together -/

/-- The invariant of a display, on a display small enough to look through. -/
def checkInv (d : Display) (maxWidth : Nat) : Bool :=
  decide (1 ≤ d.w ∧ d.w ≤ maxWidth) && decide (1 ≤ d.h ∧ d.h ≤ Config.maxHeight) && d.buf.wf &&
  d.buf.all (fun c => decide (c.1 < d.bufLen)) &&
  (List.range d.h).all (fun y => (List.range (8 * d.stride)).all fun x => decide (x < d.w) || d.pixel x y) &&
  match d.tracker with
  | none => true
  | some t => decide (t.length = d.h + 1) && decide (t.bit 0 = (List.range d.h).any fun y => t.bit (y + 1))

theorem inv_of_check {d : Display} {maxWidth : Nat} (h : checkInv d maxWidth = true) : d.Inv maxWidth := by
  simp only [checkInv, Bool.and_eq_true, decide_eq_true_eq, List.all_eq_true, List.mem_range, Bool.or_eq_true] at h
  obtain ⟨⟨⟨⟨⟨hw, hh⟩, hc⟩, hb⟩, hp⟩, ht⟩ := h
  refine ⟨hw, hh, hc, hb, fun x y h1 h2 h3 => (hp y h3 x h2).resolve_left (by omega), fun t htr => ?_⟩
  rw [htr] at ht
  simp only [Bool.and_eq_true, decide_eq_true_eq] at ht
  refine ⟨ht.1, ?_⟩
  rw [ht.2, List.any_eq_true]
  constructor
  · rintro ⟨y, hy, h⟩
    exact ⟨y + 1, by omega, by have := List.mem_range.mp hy; omega, h⟩
  · rintro ⟨i, h1, h2, h⟩
    exact ⟨i - 1, List.mem_range.mpr (by omega), by rw [Nat.sub_add_cancel h1]; exact h⟩

/-- `10×2`, no diffing, black at (9,0). -/
def plain : Display := { white 10 2 false with buf := [(1, 0xFD)] }

/-- `16×3`, diffing, nothing marked. -/
def clean : Display := white 16 3 true

theorem marked_inv : marked.Inv 400 := inv_of_check (by decide)
theorem plain_inv : plain.Inv 400 := inv_of_check (by decide)
theorem clean_inv : clean.Inv 400 := inv_of_check (by decide)

theorem at_inv {d : Display} (h : d.Inv 400) (answers : List Answer) : (at_ d answers).Inv :=
  ⟨⟨show 1 ≤ 400 by decide, show 400 ≤ 32767 by decide⟩, by rintro _ ⟨⟩; exact h, rfl, .nil⟩

/-- A display whose tracker is `t` has nothing else as its tracker. -/
theorem marked_any : ∀ t, marked.tracker = some t → t.testAny = true := by rintro _ ⟨⟩; rfl
theorem plain_any : ∀ t, plain.tracker = some t → t.testAny = true := by rintro _ ⟨⟩

theorem witness_WireUnitsAreTheirBytes : decode (.unit .opensWindow 0x3B 0xFF) = .ok (.wireWriteLine 7 true 0xFF) := by decide
theorem witness_BytesMatchingNoWireRowAreRejected :
    ((0x05#8).getLsbD 0 = true ∧ (0x05#8).getLsbD 2 = true) ∧
    ((0x08#8).getLsbD 0 = false ∧ ∃ k, 3 ≤ k ∧ k ≤ 7 ∧ (0x08#8).getLsbD k = true) ∧
    ((0x80#8).getLsbD 0 = false ∧ ∃ k, 3 ≤ k ∧ k ≤ 7 ∧ (0x80#8).getLsbD k = true) ∧
    ((0x02#8).getLsbD 0 = false ∧ (0x01#8 : Byte) ≠ 0#8) ∧
    (UnitPlace.afterRow = .afterRow ∧ (0x02#8).getLsbD 0 = false ∧ (0x02#8 : Byte) ≠ 0#8) :=
  ⟨by decide, ⟨rfl, 3, by decide⟩, ⟨rfl, 7, by decide⟩, by decide, by decide⟩
theorem witness_RowHeaderBytes : 0 + 1 ≤ Config.maxHeight ∧ 2046 + 1 ≤ Config.maxHeight := by decide
theorem witness_ReaderRecoversTheRowIndex : 254 + 1 ≤ Config.maxHeight ∧ 255 + 1 ≤ Config.maxHeight ∧ 2046 + 1 ≤ Config.maxHeight := by
  decide
theorem witness_SizeFunctionLaws : 1 ≤ 1 ∧ 1 ≤ 2048 ∧ 1 ≤ 16 ∧ 1 ≤ 17 := by decide
theorem witness_CanonicalMemoriesAreTheirContents :
    Memory.wf [(2, 0xFB)] = true ∧ ∀ a, Memory.read [(2, 0xFB)] a = Memory.read [(2, 0xFB)] a := ⟨by decide, fun _ => rfl⟩
theorem witness_PixelAddressesStayInside : 0 < 8 * plain.stride ∧ 15 < 8 * plain.stride ∧ 1 < plain.h := by decide
theorem witness_PixelsDoNotShareBits : 9 < 8 * plain.stride ∧ plain.paddr 9 1 = plain.paddr 9 1 ∧ pbit 9 = pbit 9 := by decide

theorem witness_ConfigureBuildsTheDisplay :
    (1 ≤ (1 : S16).toInt ∧ (1 : S16).toInt ≤ off.maxWidth ∧ 1 ≤ (1 : S16).toInt ∧ (1 : S16).toInt ≤ 2047) ∧
    (1 ≤ (400 : S16).toInt ∧ (400 : S16).toInt ≤ off.maxWidth ∧ 1 ≤ (2047 : S16).toInt ∧ (2047 : S16).toInt ≤ 2047) := by decide
theorem witness_ConfigureRejectsWithoutChange :
    (0 : S16).toInt < 1 ∧ (off.maxWidth : Int) < (401 : S16).toInt ∧ 2047 < (2048 : S16).toInt ∧ (-32768 : S16).toInt < 1 := by decide

theorem witness_SetPixelPaintsAndMarks :
    (at_ marked).display = some marked ∧ marked.Inv (at_ marked).maxWidth ∧
    (15 : S16).toInt = (15 : Nat) ∧ (2 : S16).toInt = (2 : Nat) ∧ 15 < marked.w ∧ 2 < marked.h ∧
    marked.pixel 15 2 ≠ !true :=
  ⟨rfl, marked_inv, by decide, by decide, by decide, by decide, by decide⟩
theorem witness_SetPixelPaintsAndMarks_without_tracker :
    (at_ plain).display = some plain ∧ plain.Inv (at_ plain).maxWidth ∧
    (9 : S16).toInt = (9 : Nat) ∧ (0 : S16).toInt = (0 : Nat) ∧ 9 < plain.w ∧ 0 < plain.h ∧ plain.pixel 9 0 ≠ !false :=
  ⟨rfl, plain_inv, by decide, by decide, by decide, by decide, by decide⟩
theorem witness_SetPixelSameColourChangesNothing :
    (at_ marked).display = some marked ∧ (2 : S16).toInt = (2 : Nat) ∧ (1 : S16).toInt = (1 : Nat) ∧
    2 < marked.w ∧ 1 < marked.h ∧ marked.pixel 2 1 = !true :=
  ⟨rfl, by decide, by decide, by decide, by decide, by decide⟩
theorem witness_SetPixelOutOfRangeChangesNothing :
    (at_ marked).display = some marked ∧ (-1 : S16).toInt < 0 ∧ (marked.w : Int) ≤ (16 : S16).toInt ∧
    (-32768 : S16).toInt < 0 ∧ (marked.h : Int) ≤ (3 : S16).toInt :=
  ⟨rfl, by decide, by decide, by decide, by decide⟩
theorem witness_SetPixelTwiceIsOnce :
    (at_ marked).display = some marked ∧ marked.Inv (at_ marked).maxWidth ∧
    0 ≤ (15 : S16).toInt ∧ (15 : S16).toInt < marked.w ∧ 0 ≤ (0 : S16).toInt ∧ (0 : S16).toInt < marked.h :=
  ⟨rfl, marked_inv, by decide, by decide, by decide, by decide⟩

theorem witness_ClearBufferWhitensAndMarks : (at_ marked).display = some marked ∧ marked.Inv (at_ marked).maxWidth :=
  ⟨rfl, marked_inv⟩
theorem witness_ClearBufferWhitensAndMarks_without_tracker :
    (at_ plain).display = some plain ∧ plain.Inv (at_ plain).maxWidth ∧ plain.tracker = none := ⟨rfl, plain_inv, rfl⟩
theorem witness_RowScanSeesEveryNonWhiteByte : plain.Inv 400 ∧ 0 < plain.h ∧ 1 < plain.h := ⟨plain_inv, by decide, by decide⟩

theorem witness_SizeAnswersTheDimensions : (at_ marked).display = some marked ∧ off.display = none := ⟨rfl, rfl⟩
theorem witness_RowDirtyQueryAnswers :
    ((at_ marked).display = some marked ∧ ((-1 : S16).toInt < 0 ∧ (marked.h : Int) ≤ (3 : S16).toInt)) ∧
    ((at_ plain).display = some plain ∧ plain.tracker = none ∧ (1 : S16).toInt = (1 : Nat) ∧ 1 < plain.h) ∧
    ((at_ marked).display = some marked ∧ marked.tracker = some [true, false, true, false] ∧ (2 : S16).toInt = (2 : Nat) ∧
      2 < marked.h) :=
  ⟨⟨rfl, by decide⟩, ⟨rfl, rfl, by decide, by decide⟩, ⟨rfl, rfl, by decide, by decide⟩⟩
theorem witness_AnyDirtyQueryAnswers :
    ((at_ plain).display = some plain ∧ plain.tracker = none) ∧
    ((at_ marked).display = some marked ∧ marked.tracker = some [true, false, true, false]) := ⟨⟨rfl, rfl⟩, ⟨rfl, rfl⟩⟩
theorem witness_AnyDirtyExactlyWhenSomeRowIs : (at_ clean).display = some clean ∧ clean.Inv (at_ clean).maxWidth :=
  ⟨rfl, clean_inv⟩
theorem witness_MarkRowDirtySetsTwoBits : (Tracker.clean 10).length = 10 + 1 ∧ 0 < 10 ∧ 9 < 10 := by decide

theorem witness_RenderSendsTheSelectedRows :
    (at_ marked [.ok, .ok, .ok]).display = some marked ∧ (∀ t, marked.tracker = some t → t.testAny = true) ∧
    ∀ k, k < marked.renderCalls.length → (at_ marked [.ok, .ok, .ok]).answerAt k = .ok := ⟨rfl, marked_any, by decide⟩
theorem witness_RenderAbortsAtTheFirstError :
    (at_ marked [.ok, .err 7 1]).display = some marked ∧ (∀ t, marked.tracker = some t → t.testAny = true) ∧
    marked.renderCalls[1]? = some [0xFB, 0xFF] ∧ (∀ j, j < 1 → (at_ marked [.ok, .err 7 1]).answerAt j = .ok) ∧
    (at_ marked [.ok, .err 7 1]).answerAt 1 = .err 7 1 := ⟨rfl, marked_any, by decide, by decide, rfl⟩
theorem witness_RenderWithNothingDirtyIsHold :
    (at_ clean).display = some clean ∧ clean.tracker = some [false, false, false, false] ∧
    Tracker.testAny [false, false, false, false] = false := ⟨rfl, rfl, rfl⟩
theorem witness_RenderFrameLength : plain.tracker = none := rfl
theorem witness_RenderFrameReadsBack :
    (marked.Inv 400 ∧ ∀ t, marked.tracker = some t → t.testAny = true) ∧
    (plain.Inv 400 ∧ ∀ t, plain.tracker = some t → t.testAny = true) := ⟨⟨marked_inv, marked_any⟩, ⟨plain_inv, plain_any⟩⟩
theorem witness_RenderRunsItsWireUnits :
    (at_ marked [.ok, .ok, .ok]).fault = none ∧ (at_ marked [.ok, .ok, .ok]).display = some marked ∧
    marked.Inv (at_ marked [.ok, .ok, .ok]).maxWidth ∧ (∀ t, marked.tracker = some t → t.testAny = true) ∧
    ∀ k, k < marked.renderCalls.length → (at_ marked [.ok, .ok, .ok]).answerAt k = .ok :=
  ⟨rfl, rfl, marked_inv, marked_any, by decide⟩

/-- For HoldSendsTheHoldFrame, ClearDisplaySendsTheClearFrame and ClearWhitensAndSendsTheClearFrame, in both polarities. -/
theorem witness_transfer_succeeds :
    ((at_ marked [.ok]).display = some marked ∧ (at_ marked [.ok]).answerAt 0 = .ok ∧ marked.v = true) ∧
    ((at_ { marked with v := false } [.ok]).display = some { marked with v := false } ∧
      (at_ { marked with v := false } [.ok]).answerAt 0 = .ok) := ⟨⟨rfl, rfl, rfl⟩, ⟨rfl, rfl⟩⟩
/-- For HoldAbortKeepsPolarity and ClearDisplayAbortKeepsPolarity: nothing, one byte, all, and more than all delivered. -/
theorem witness_transfer_fails :
    (at_ marked [.err 7 0]).display = some marked ∧ (at_ marked [.err 7 0]).answerAt 0 = .err 7 0 ∧
    (at_ marked [.err 7 2]).answerAt 0 = .err 7 2 ∧ (at_ marked [.err 7 3]).answerAt 0 = .err 7 3 := ⟨rfl, rfl, rfl, rfl⟩
theorem witness_ClearIsBufferThenDisplay : (at_ plain [.ok]).display = some plain := rfl

/-- The first and the last row; both transfers succeed, the first fails, the second fails. -/
theorem witness_WriteLineUnitSendsHeaderAndRow :
    ((at_ marked [.ok, .ok]).display = some marked ∧ rowIndexOf 0 1 = 0 + 1 ∧ 0 < marked.h ∧
      rowIndexOf 0 3 = 2 + 1 ∧ 2 < marked.h) ∧
    ((at_ marked [.ok, .ok]).answerAt 0 = .ok ∧ (at_ marked [.ok, .ok]).answerAt 1 = .ok) ∧
    (at_ marked [.err 7 1]).answerAt 0 = .err 7 1 ∧
    ((at_ marked [.ok, .err 7 2]).answerAt 0 = .ok ∧ (at_ marked [.ok, .err 7 2]).answerAt 1 = .err 7 2) :=
  ⟨⟨rfl, by decide, by decide, by decide, by decide⟩, ⟨rfl, rfl⟩, rfl, ⟨rfl, rfl⟩⟩
theorem witness_WriteLineUnitStopsOffTheDisplay :
    (at_ marked).display = some marked ∧ rowIndexOf 0 0 = 0 ∧ marked.h < rowIndexOf 0 4 := ⟨rfl, by decide, by decide⟩
theorem witness_TwoByteUnitsSendTheirBytes :
    (at_ marked [.ok]).display = some marked ∧
    (Instr.wireHold true = .wireHold true ∧ [0x02#8, 0x00#8] = [if true then 0x02#8 else 0x00#8, 0x00#8]) ∧
    (Instr.wireClear false = .wireClear false ∧ [0x04#8, 0x00#8] = [if false then 0x06#8 else 0x04#8, 0x00#8]) ∧
    (at_ marked [.ok]).answerAt 0 = .ok ∧ (at_ marked [.err 7 1]).answerAt 0 = .err 7 1 := by
  refine ⟨rfl, ⟨rfl, rfl⟩, ⟨rfl, rfl⟩, rfl, rfl⟩

theorem witness_UnconfiguredOperationsFault : (∀ w h f, Instr.render ≠ .configure w h f) ∧ off.display = none :=
  ⟨(by simp), rfl⟩
theorem witness_UnassignedOpsAreRejected :
    (recordOp 0x1).toNat = 1 ∧ (recordOp 0xA).toNat = 10 ∧ (recordOp 0x0).toNat = 0 ∧ (recordOp 0xB).toNat = 11 ∧
    (recordOp 0xF).toNat = 15 := by decide
/-- An overlapping request with an assigned OP, a foreign drive, and an OP of 0x0, of 0xB and of 0xF. -/
theorem witness_PortFaultPriority :
    (off.fault = none ∧ off.bench = none) ∧
    ({ off with pending := [.request 0x5 true] } : State).pending = .request 0x5 true :: [] ∧
    ({ off with pending := [.foreignDrive .transport] } : State).pending = .foreignDrive .transport :: [] ∧
    (({ off with pending := [.request 0xB false] } : State).pending = .request 0xB false :: [] ∧ 11 ≤ (recordOp 0xB).toNat) ∧
    (recordOp 0x0).toNat = 0 ∧ 11 ≤ (recordOp 0xF).toNat :=
  ⟨⟨rfl, rfl⟩, rfl, rfl, ⟨rfl, by decide⟩, by decide, by decide⟩
theorem witness_FaultedStateTakesNoStep : ({ off with fault := some .illegalOp } : State).fault = some .illegalOp := rfl
theorem witness_StepRunsTheDecodedInstruction :
    off.fault = none ∧
    (off.bench = none ∧ ({ off with pending := [.request 0x5 false] } : State).pending = .request 0x5 false :: [] ∧
      decode (.request 0x5) = .ok .hold) ∧
    (({ off with bench := some ⟨.afterRow, 0, 0⟩ } : State).bench = some ⟨.afterRow, 0, 0⟩ ∧
      decode (.unit .afterRow 0 0) = .ok .wireTrailer) :=
  ⟨rfl, ⟨rfl, rfl, by decide⟩, ⟨rfl, by decide⟩⟩
theorem witness_HostMovesAndWaiting :
    off.fault = none ∧ off.bench = none ∧ ({ off with pending := [.deselect] } : State).pending = .deselect :: [] ∧
    off.pending = [] ∧ step { off with pending := [.deselect] } = .next { off with log := [.hdesel] } :=
  ⟨rfl, rfl, rfl, rfl, rfl⟩

theorem witness_StepKeepsInvariant :
    (at_ marked).Inv ∧ ({ at_ marked with pending := [.deselect] } : State).Inv ∧
    step { at_ marked with pending := [.deselect] } = .next { at_ marked with log := [.hdesel] } :=
  ⟨at_inv marked_inv [], ⟨⟨by decide, by decide⟩, by rintro _ ⟨⟩; exact marked_inv, rfl, .nil⟩, rfl⟩
theorem witness_LogOnlyGrows : step { off with pending := [.deselect] } = .next { off with log := [.hdesel] } := rfl

/-- Some request completes, for the statements about any request and its next state: a transaction, and one that is none. -/
theorem witness_RequestsEmitOneTransaction : isRequest .hold = true ∧ ∃ t, exec .hold (at_ marked [.ok]) = .next t := ⟨rfl, _, rfl⟩
theorem witness_OnlyTransactionsTouchTheBus :
    isRequest .size = true ∧ isTransaction .size = false ∧ (∀ w h f, Instr.size ≠ .configure w h f) ∧
    ∃ t, exec .size (at_ marked) = .next t := ⟨rfl, rfl, (by simp), _, rfl⟩
theorem witness_OnlyConfigureWritesTheConfiguration :
    (∃ t, exec .hold (at_ marked [.ok]) = .next t) ∧ (at_ marked [.ok]).display = some marked ∧
    ∀ w h f, Instr.hold ≠ .configure w h f := ⟨⟨_, rfl⟩, rfl, (by simp)⟩
theorem witness_RangeErrorsChangeNothing :
    nextIs (exec (.configure 0 1 true) off) (fun t => decide (t.responses = off.responses ++ [⟨.errConfig, none⟩])) = true ∧
    nextIs (exec (.isRowDirty 3) (at_ marked)) (fun t =>
      decide (t.responses = (at_ marked).responses ++ [⟨.errRange, none⟩])) = true := by decide
theorem witness_EachRequestAnswersItsStatuses :
    isRequest (.configure 0 0 false) = true ∧ (∃ w h f, Instr.configure 0 0 false = .configure w h f) ∧
    isRequest .render = true ∧ (at_ marked).display ≠ none := ⟨rfl, ⟨_, _, _, rfl⟩, rfl, by decide⟩
/-- A successful RENDER clears a set bit. -/
theorem witness_OnlyASuccessfulRenderClearsMarks :
    (∀ w h f, Instr.render ≠ .configure w h f) ∧ (at_ marked [.ok, .ok, .ok]).display = some marked ∧
    marked.tracker = some [true, false, true, false] ∧ Tracker.bit [true, false, true, false] 2 = true ∧
    Tracker.bit [false, false, false, false] 2 = false ∧
    nextIs (exec .render (at_ marked [.ok, .ok, .ok])) (fun t =>
      decide (t.display.map Display.tracker = some (some [false, false, false, false]))) = true :=
  ⟨(by simp), rfl, rfl, rfl, rfl, by decide⟩
/-- Row 0 stays unmarked when row 2 is painted. -/
theorem witness_CleanRowsKeepTheirBytes :
    (∀ w h f, Instr.setPixel 0 2 true ≠ .configure w h f) ∧ Instr.setPixel 0 2 true ≠ .render ∧
    (at_ marked).display = some marked ∧ marked.Inv (at_ marked).maxWidth ∧
    marked.tracker = some [true, false, true, false] ∧ 0 < marked.h ∧
    nextIs (exec (.setPixel 0 2 true) (at_ marked)) (fun t =>
      decide (t.display.map Display.tracker = some (some [true, false, true, true]))) = true ∧
    Tracker.testRow [true, false, true, true] 0 = false :=
  ⟨(by simp), (by simp), rfl, marked_inv, rfl, by decide, by decide, rfl⟩
/-- A HOLD and a query, both without a failure. -/
theorem witness_PolarityAlternates :
    (at_ marked [.ok]).Inv ∧ (at_ marked [.ok]).fault = none ∧ (at_ marked [.ok]).display = some marked ∧
    (∀ i ∈ [Instr.hold, Instr.size], isRequest i = true ∧ ∀ w h f, i ≠ .configure w h f) ∧
    nextIs (execAll [.hold, .size] (at_ marked [.ok])) (fun t =>
      decide (failedCalls t.log = failedCalls (at_ marked [.ok]).log)) = true := by
  refine ⟨at_inv marked_inv _, rfl, rfl, ?_, by decide⟩
  intro i hi
  simp only [List.mem_cons, List.not_mem_nil, or_false] at hi
  rcases hi with rfl | rfl <;> exact ⟨rfl, (by simp)⟩
/-- `marked` with select left asserted by an earlier failed hold. -/
def leftSelected (answers : List Answer) : State :=
  { at_ marked answers with cs := true, log := [.sel, .tx [0x02, 0x00] (.err 7)], delivered := [1] }
theorem leftSelected_inv (answers : List Answer) : (leftSelected answers).Inv :=
  ⟨⟨show 1 ≤ 400 by decide, show 400 ≤ 32767 by decide⟩, by rintro _ ⟨⟩; exact marked_inv, rfl, .cons (by decide) .nil⟩
/-- Each clause: select deasserted and asserted, a transfer that succeeds and one that fails after one byte. -/
theorem witness_PanelReceivesTheHoldFrame :
    ((at_ marked [.ok]).Inv ∧ (at_ marked [.ok]).display = some marked ∧ (∃ t, exec .hold (at_ marked [.ok]) = .next t) ∧
      (at_ marked [.ok]).answerAt 0 = .ok ∧ (at_ marked [.ok]).cs = false) ∧
    ((leftSelected [.err 8 1]).Inv ∧ (leftSelected [.err 8 1]).display = some marked ∧
      (∃ t, exec .hold (leftSelected [.err 8 1]) = .next t) ∧
      (leftSelected [.err 8 1]).answerAt 0 = .err 8 1 ∧ (leftSelected [.err 8 1]).cs = true) :=
  ⟨⟨at_inv marked_inv _, rfl, ⟨_, rfl⟩, rfl, rfl⟩, ⟨leftSelected_inv _, rfl, ⟨_, rfl⟩, rfl, rfl⟩⟩

end Sys2Proof.Tests
end

