-- ==== Sys2Proof/Proofs/Frames.lean ====
section
/-! PROOFS. The bytes of a row header as numbers, and the hold and the clear frame byte for byte (spec/30_encoding.md R86, R88,
R89). -/

namespace Sys2Proof.Machine

@[simp] theorem toNat_vmask (v : Bool) : (vmask v).toNat = if v then 0x02 else 0x00 := by
  cases v <;> rfl

theorem toNat_renderCmd (v : Bool) : (renderCmd v).toNat = 0x01 ||| (if v then 0x02 else 0x00) := by
  simp [renderCmd]

/-- R86's formula for header byte 0, for every command byte and every row index: truncating the row bits before the `or` is
truncating the whole, since the command is a byte. -/
theorem toNat_headerByte0 (cmd : Byte) (r : Nat) :
    (headerByte0 cmd r).toNat = (cmd.toNat ||| ((r >>> 8) <<< 3)) % 256 := by
  have rowBits : r / 256 * 8 = (r >>> 8) <<< 3 := by
    rw [Nat.shiftRight_eq_div_pow, Nat.shiftLeft_eq]
  have truncates : (cmd.toNat ||| ((r >>> 8) <<< 3)) % 2 ^ 8 = cmd.toNat ||| ((r >>> 8) <<< 3) % 2 ^ 8 := by
    rw [Nat.or_mod_two_pow, Nat.mod_eq_of_lt cmd.isLt]
  rw [headerByte0, rowBits, BitVec.toNat_or, BitVec.toNat_ofNat]
  exact truncates.symm

theorem toNat_headerByte1 (r : Nat) : (headerByte1 r).toNat = r &&& 0xFF :=
  (Nat.and_two_pow_sub_one_eq_mod r 8).symm

theorem holdFrame_eq (v : Bool) : holdFrame v = [if v then 0x02#8 else 0x00#8, 0x00#8] := rfl

theorem clearFrame_eq (v : Bool) : clearFrame v = [if v then 0x06#8 else 0x04#8, 0x00#8] := by
  cases v <;> rfl

/-- Settles O6: `headerOf` is the two header bytes, whose values are R86's formulas for the command byte of a RENDER. -/
theorem rowHeaderBytes : Obligations.RowHeaderBytes := by
  intro v y _
  refine ⟨headerByte0 (renderCmd v) (y + 1), headerByte1 (y + 1), rfl, ?_, toNat_headerByte1 (y + 1)⟩
  rw [toNat_headerByte0, toNat_renderCmd]

/-- Settles O8: each frame's bytes at either polarity. -/
theorem holdAndClearFrames : Obligations.HoldAndClearFrames :=
  ⟨⟨holdFrame_eq true, holdFrame_eq false⟩, ⟨clearFrame_eq true, clearFrame_eq false⟩⟩

end Sys2Proof.Machine
end

