-- ==== Sys2Proof/Proofs/BitUtilities.lean ====
section
/-! PROOFS. The bit functions of the utilities as numbers and bit by bit (spec/40_bit_utilities.md R110, R111, R112). -/

namespace Sys2Proof.Machine

/-- R112: TSTBIT reads the binary digit of weight `2 ^ p`. -/
theorem tstBit_eq_decide_div_mod (b : Byte) (p : Fin 8) :
    tstBit b p = decide (b.toNat / 2 ^ p.val % 2 = 1) := by
  rw [tstBit_eq_getLsbD, ← BitVec.testBit_toNat, Nat.testBit_eq_decide_div_mod_eq]

/-- Settles O10: the position changed (`q = p`) against the seven kept, from the laws of SETBIT and CLRBIT. -/
theorem bitFunctionsChangeOneBit : Obligations.BitFunctionsChangeOneBit := by
  intro b p q
  refine ⟨tstBit_eq_decide_div_mod b p, ?_, ?_⟩
  · rw [tstBit_setBit]
    by_cases changed : q = p <;> simp [changed]
  · rw [tstBit_clrBit]
    by_cases changed : q = p <;> simp [changed]

end Sys2Proof.Machine
end

