-- ==== Sys2Proof/Proofs/Codec.lean ====
section
/-! PROOFS. Encoding and decoding: the ten requests of the port (spec/30_encoding.md R81, R82) and the wire units (R86 to R94),
read through the fields of R90. -/

namespace Sys2Proof

open Sys2Proof.Machine

/-! ### The wire units -/

/-- Every byte is the first byte of a unit with some R90 fields. -/
theorem exists_unitByte0 (b : Byte) : ∃ rhi clr vcom wr, b = unitByte0 rhi clr vcom wr :=
  ⟨_, _, _, _, byte_eq_unitByte0 b⟩

/-- A write-line header decodes by its fields, at either place (R86, R92). -/
@[simp] theorem decodeUnit_header (place : UnitPlace) (rhi : BitVec 5) (v : Bool) (rlo : Byte) :
    decodeUnit place (unitByte0 rhi false v true) rlo = .ok (.wireWriteLine rhi v rlo) := by
  simp only [decodeUnit, unitByte0_fields]
  rfl

/-- A two-byte frame decodes by its `CLR` bit (R88, R89). -/
@[simp] theorem decodeUnit_frame (clr v : Bool) :
    decodeUnit .opensWindow (unitByte0 0 clr v false) 0 = .ok (if clr then .wireClear v else .wireHold v) := by
  simp only [decodeUnit, unitByte0_fields]
  rfl

/-- The trailer decodes after a row (R87, R93). -/
@[simp] theorem decodeUnit_trailer : decodeUnit .afterRow (unitByte0 0 false false false) 0 = .ok .wireTrailer := by
  simp only [decodeUnit, unitByte0_fields]
  rfl

/-- Everything two bytes can decode to, with the fields they then have. -/
theorem decodeUnit_ok {place : UnitPlace} {b0 b1 : Byte} {i : Instr} (h : decodeUnit place b0 b1 = .ok i) :
    (∃ rhi v, b0 = unitByte0 rhi false v true ∧ i = .wireWriteLine rhi v b1) ∨
    (∃ clr v, b0 = unitByte0 0 clr v false ∧ b1 = 0 ∧ i = if clr then .wireClear v else .wireHold v) ∨
    (b0 = unitByte0 0 false false false ∧ b1 = 0 ∧ i = .wireTrailer) := by
  obtain ⟨rhi, clr, v, wr, rfl⟩ := exists_unitByte0 b0
  simp only [decodeUnit, unitByte0_fields] at h
  split at h
  · rename_i hwr
    split at h <;> cases h
    rename_i hclr
    exact .inl ⟨rhi, v, by simp_all, rfl⟩
  · rename_i hwr
    split at h
    · rename_i hzero
      obtain ⟨rfl, rfl⟩ := hzero
      cases place with
      | opensWindow => exact .inr (.inl ⟨clr, v, by simp_all, rfl, (Except.ok.inj h).symm⟩)
      | afterRow =>
        simp only at h
        split at h <;> cases h
        exact .inr (.inr ⟨by simp_all, rfl, rfl⟩)
    · cases h

/-- Settles O4: each decoded unit's encoding puts the fields back where `decodeUnit` read them. -/
theorem wireUnitsAreTheirBytes : Obligations.WireUnitsAreTheirBytes := by
  intro place b0 b1 i h
  rcases decodeUnit_ok h with ⟨rhi, v, rfl, rfl⟩ | ⟨clr, v, rfl, rfl, rfl⟩ | ⟨rfl, rfl, rfl⟩
  · exact ⟨.opensWindow, rfl⟩
  · cases clr <;> exact ⟨.opensWindow, rfl⟩
  · exact ⟨.afterRow, rfl⟩

/-- Write together with clear is no unit (R94). -/
theorem decodeUnit_write_and_clear {place : UnitPlace} {b0 b1 : Byte} (hwr : b0.getLsbD 0 = true)
    (hclr : b0.getLsbD 2 = true) : decodeUnit place b0 b1 = .error (.notAWireUnit b0 b1) := by
  simp only [decodeUnit, hwr, hclr, if_true]

/-- Outside a header a bit of 7:3 or a nonzero second byte is no unit (R94). -/
theorem decodeUnit_nonzero_fields {place : UnitPlace} {b0 b1 : Byte} (hwr : b0.getLsbD 0 = false)
    (h : ¬ (b0.extractLsb' 3 5 = 0#5 ∧ b1 = 0#8)) : decodeUnit place b0 b1 = .error (.notAWireUnit b0 b1) := by
  simp only [decodeUnit, hwr, Bool.false_eq_true, if_false, if_neg h]

/-- A bit of 7:3 makes the field `RHI` nonzero (R90). -/
theorem rhi_ne_zero_of_bit {b : Byte} {k : Nat} (h3 : 3 ≤ k) (h7 : k ≤ 7) (hbit : b.getLsbD k = true) :
    b.extractLsb' 3 5 ≠ 0#5 := by
  intro hzero
  have : (b.extractLsb' 3 5).getLsbD (k - 3) = b.getLsbD k := by
    rw [BitVec.getLsbD_extractLsb', show 3 + (k - 3) = k by omega, decide_eq_true (by omega), Bool.true_and]
  rw [hzero, hbit] at this
  simp at this

/-- After a row only a header or `[0, 0]` is a unit (R92, R94). -/
theorem decodeUnit_afterRow_nonzero {b0 b1 : Byte} (hwr : b0.getLsbD 0 = false) (h : b0 ≠ 0#8 ∨ b1 ≠ 0#8) :
    decodeUnit .afterRow b0 b1 = .error (.notAWireUnit b0 b1) := by
  obtain ⟨rhi, clr, v, wr, rfl⟩ := exists_unitByte0 b0
  by_cases hz : (unitByte0 rhi clr v wr).extractLsb' 3 5 = 0#5 ∧ b1 = 0#8
  · obtain ⟨hrhi, rfl⟩ := hz
    simp only [unitByte0_fields] at hwr hrhi
    subst hwr hrhi
    have hflags : (clr || v) = true := by
      rcases h with h | h
      · revert h; cases clr <;> cases v <;> decide
      · exact absurd rfl h
    simp only [decodeUnit, unitByte0_fields, hflags]
    rfl
  · exact decodeUnit_nonzero_fields hwr hz

/-- Settles O5: the three patterns of R94, each by the test of `decodeUnit` that rejects it. -/
theorem bytesMatchingNoWireRowAreRejected : Obligations.BytesMatchingNoWireRowAreRejected := by
  rintro place b0 b1 (⟨hwr, hclr⟩ | ⟨hwr, ⟨k, h3, h7, hbit⟩ | hb1⟩ | ⟨rfl, hwr, hne⟩)
  · exact decodeUnit_write_and_clear hwr hclr
  · exact decodeUnit_nonzero_fields hwr fun hz => rhi_ne_zero_of_bit h3 h7 hbit hz.1
  · exact decodeUnit_nonzero_fields hwr fun hz => hb1 hz.2
  · exact decodeUnit_afterRow_nonzero hwr hne

/-! ### The request port -/

/-- Settles O2: the record's fields are read back, and the table of OPs is looked up. -/
theorem requestOpcodesDecodeAsAssigned : Obligations.RequestOpcodesDecodeAsAssigned := by
  intro a b c
  simp [decode, decodeRequest]

/-- A record with an assigned OP decodes (R82). -/
theorem decodeRequest_assigned {r : BitVec 37} (h1 : 1 ≤ (recordOp r).toNat) (h10 : (recordOp r).toNat ≤ 10) :
    ∃ i, decodeRequest r = .ok i := by
  unfold decodeRequest
  interval_cases (recordOp r).toNat <;> exact ⟨_, rfl⟩

/-- A record with an unassigned OP is rejected by the OP's name (R82). -/
theorem decodeRequest_unassigned {r : BitVec 37} (h : (recordOp r).toNat = 0 ∨ 11 ≤ (recordOp r).toNat) :
    decodeRequest r = .error (.unassignedOp (recordOp r)) := by
  unfold decodeRequest
  split
  case h_11 => rfl
  all_goals omega

/-- Settles O3: the assigned and the unassigned OPs. -/
theorem unassignedOpsAreRejected : Obligations.UnassignedOpsAreRejected :=
  fun _ => ⟨fun ⟨h1, h10⟩ => decodeRequest_assigned h1 h10, decodeRequest_unassigned⟩

/-- Settles O9: each word is decoded. -/
theorem sampleWordsDecode : Obligations.SampleWordsDecode := by
  refine ⟨?_, ?_, ?_, ?_, ?_, ?_⟩ <;> decide

/-- Settles O1: a request by the fields of its record, a wire unit by the fields of its first byte. -/
theorem decodeReadsBackEveryEncoding : Obligations.DecodeReadsBackEveryEncoding := by
  intro i
  cases i with
  | wireWriteLine rhi v rlo => exact decodeUnit_header .opensWindow rhi v rlo
  | wireHold v => exact decodeUnit_frame false v
  | wireClear v => exact decodeUnit_frame true v
  | wireTrailer => exact decodeUnit_trailer
  | _ => simp [encode, decode, decodeRequest]

/-! ### The row header -/

/-- The header of row index `r` is the first byte of a write-line unit, for every row index a display can have (R86, R90). -/
theorem headerByte0_eq_unitByte0 (v : Bool) {r : Nat} (hr : r ≤ Config.maxHeight) :
    headerByte0 (renderCmd v) r = unitByte0 (BitVec.ofNat 5 (r / 256)) false v true := by
  have fields : ∀ (v : Bool) (k : Fin 8),
      renderCmd v ||| BitVec.ofNat 8 (k.val * 8) = unitByte0 (BitVec.ofNat 5 k.val) false v true := by decide
  have hr : r ≤ 2047 := hr
  exact fields v ⟨r / 256, by omega⟩

/-- R91's assembly of the row index from a header's fields. -/
theorem rowIndexOf_header {r : Nat} (hr : r ≤ Config.maxHeight) :
    rowIndexOf (BitVec.ofNat 5 (r / 256)) (headerByte1 r) = r := by
  have hr : r ≤ 2047 := hr
  simp only [rowIndexOf, headerByte1, BitVec.toNat_ofNat]
  omega

/-- A row header decodes to the write-line unit of its row index and polarity, at either place. -/
theorem decodeUnit_rowHeader (place : UnitPlace) (v : Bool) {r : Nat} (hr : r ≤ Config.maxHeight) :
    decodeUnit place (headerByte0 (renderCmd v) r) (headerByte1 r) =
      .ok (.wireWriteLine (BitVec.ofNat 5 (r / 256)) v (headerByte1 r)) := by
  rw [headerByte0_eq_unitByte0 v hr, decodeUnit_header]

/-- Settles O7: the header's fields are the row index in base 256 and the polarity. -/
theorem readerRecoversTheRowIndex : Obligations.ReaderRecoversTheRowIndex := by
  intro place v y hy
  have hy' : y + 1 ≤ 2047 := hy
  refine ⟨_, _, decodeUnit_rowHeader place v hy, rowIndexOf_header hy, ?_⟩
  have hrhi : (BitVec.ofNat 5 ((y + 1) / 256)).toNat ≤ 7 := by rw [BitVec.toNat_ofNat]; omega
  simp only [Instr.wf, rowIndexNonzero, rhiAdmitted, rowIndexOf_header hy, decide_eq_true hrhi]
  rfl

end Sys2Proof
end

