-- ==== Sys2Proof/Proofs/RenderFrame.lean ====
section
/-! PROOFS. The bytes of a full-path RENDER's frame: their number (spec/43_frame_sequencer.md R197, R198) and what a reader who
knows the stride recovers from them (spec/30_encoding.md R91 to R95). -/

namespace Sys2Proof.Machine

/-! ### The frame's length -/

@[simp] theorem length_rowBytes (d : Display) (y : Nat) : (d.rowBytes y).length = d.stride :=
  Memory.readRange_length ..

/-- A frame is its rows, each a header and its data, and the trailer. -/
theorem renderFrame_eq (d : Display) :
    d.renderFrame = (d.selectedRows.flatMap fun y => headerOf d.v y ++ d.rowBytes y) ++ trailer := by
  unfold Display.renderFrame Display.renderCalls
  induction d.selectedRows with
  | nil => rfl
  | cons y ys ih => simp_all

theorem length_renderFrame (d : Display) : d.renderFrame.length = d.selectedRows.length * (2 + d.stride) + 2 := by
  rw [renderFrame_eq]
  simp only [headerOf, trailer, List.length_append, List.length_flatMap, List.length_cons, length_rowBytes, List.length_nil,
    List.map_const', List.sum_replicate, smul_eq_mul]

/-- Without a tracker every row is selected (R198). -/
theorem selectedRows_of_no_tracker {d : Display} (h : d.tracker = none) : d.selectedRows = List.range d.h :=
  List.filter_eq_self.mpr fun y _ => by simp [Display.selected, h]

/-- Settles O32: the length, its parity from the even stride, and all rows selected without a tracker. -/
theorem renderFrameLength : Obligations.RenderFrameLength := by
  intro d
  have even : d.stride % 2 = 0 := stride_even d.w
  refine ⟨length_renderFrame d, ?_, fun h => by rw [selectedRows_of_no_tracker h, List.length_range]⟩
  rw [length_renderFrame, Nat.add_mod_right, Nat.mul_mod, Nat.add_mod, even]
  simp

/-! ### Reading the frame back -/

theorem mem_selectedRows {d : Display} {y : Nat} : y ∈ d.selectedRows ↔ y < d.h ∧ d.selected y = true := by
  simp [Display.selectedRows]

/-- A full-path RENDER sends at least one row: all of them, or one that the set aggregate flag stands for (R28). -/
theorem selectedRows_ne_nil {d : Display} {maxWidth : Nat} (hd : d.Inv maxWidth)
    (hany : ∀ t, d.tracker = some t → t.testAny = true) : d.selectedRows ≠ [] := by
  cases htr : d.tracker with
  | none =>
    have := hd.height.1
    rw [selectedRows_of_no_tracker htr]
    simp; omega
  | some t =>
    obtain ⟨i, h1, hi, hbit⟩ := (hd.tracker t htr).aggregate.mp (hany t htr)
    refine List.ne_nil_of_mem (mem_selectedRows.mpr (⟨?_, ?_⟩ : i - 1 < d.h ∧ _))
    · omega
    · simpa [Display.selected, htr, Tracker.testRow, Nat.sub_add_cancel h1] using hbit

/-- One line of a render frame is read: header, then `stride` bytes (R92). -/
theorem parseLines_row {stride y : Nat} {data : List Byte} (v : Bool) (hy : y + 1 ≤ Config.maxHeight)
    (hdata : data.length = stride) (fuel : Nat) (rest : List Byte) :
    parseLines stride (fuel + 1) (headerOf v y ++ data ++ rest) =
      (parseLines stride fuel rest).map (⟨v, y + 1, data⟩ :: ·) := by
  simp [headerOf, parseLines, decodeUnit_rowHeader _ v hy, rowIndexOf_header hy, ← hdata]

/-- The trailer ends the frame (R92). -/
theorem parseLines_trailer (stride fuel : Nat) : parseLines stride (fuel + 1) trailer = some [] := rfl

/-- The lines of any rows followed by the trailer are read back, with fuel for each row and the trailer. -/
theorem parseLines_rows {d : Display} {ys : List Nat} (v : Bool) (hys : ∀ y ∈ ys, y + 1 ≤ Config.maxHeight) {fuel : Nat}
    (hfuel : ys.length < fuel) :
    parseLines d.stride fuel ((ys.flatMap fun y => headerOf v y ++ d.rowBytes y) ++ trailer) =
      some (ys.map fun y => ⟨v, y + 1, d.rowBytes y⟩) := by
  obtain ⟨fuel, rfl⟩ := Nat.exists_eq_add_of_lt (Nat.zero_lt_of_lt hfuel)
  rw [Nat.zero_add] at hfuel ⊢
  induction ys generalizing fuel with
  | nil => exact parseLines_trailer d.stride fuel
  | cons y ys ih =>
    obtain ⟨fuel, rfl⟩ : ∃ n, fuel = n + 1 := ⟨fuel - 1, by rw [List.length_cons] at hfuel; omega⟩
    rw [List.flatMap_cons, List.append_assoc, parseLines_row v (hys y (by simp)) (length_rowBytes d y),
      ih (fun y hy => hys y (by simp [hy])) fuel (by simpa using hfuel)]
    rfl

/-- A frame that begins with a row's header is a render frame (R93). -/
theorem parseFrame_header {stride y : Nat} (v : Bool) (hy : y + 1 ≤ Config.maxHeight) (rest : List Byte) :
    parseFrame stride (headerOf v y ++ rest) =
      (parseLines stride (rest.length + 2) (headerOf v y ++ rest)).map .render := by
  simp [headerOf, parseFrame, decodeUnit_rowHeader _ v hy]

/-- Settles O33: the first selected row's header says that it is a render frame; then induction over the selected rows. -/
theorem renderFrameReadsBack : Obligations.RenderFrameReadsBack := by
  intro d maxWidth hd hany
  have rowIndices : ∀ y ∈ d.selectedRows, y + 1 ≤ Config.maxHeight := fun y hy => by
    have := (mem_selectedRows.mp hy).1; have := hd.height.2; omega
  have enoughFuel : d.selectedRows.length < d.renderFrame.length := by
    rw [length_renderFrame, Nat.mul_add]; omega
  have lines := parseLines_rows (d := d) d.v rowIndices enoughFuel
  rw [← renderFrame_eq] at lines
  obtain ⟨y, ys, hrows⟩ := List.exists_cons_of_ne_nil (selectedRows_ne_nil hd hany)
  obtain ⟨rest, hrest⟩ : ∃ rest, d.renderFrame = headerOf d.v y ++ rest :=
    ⟨_, by rw [renderFrame_eq, hrows, List.flatMap_cons, List.append_assoc, List.append_assoc]⟩
  have hlength : d.renderFrame.length = rest.length + 2 := by rw [hrest]; simp [headerOf]
  rw [hlength, hrest] at lines
  rw [hrest, parseFrame_header d.v (rowIndices y (by simp [hrows])), lines]
  rfl

end Sys2Proof.Machine
end

