-- ==== Sys2Proof/Proofs/Layout.lean ====
section
/-! PROOFS. Sizes, addresses and data forms: BFLEN and STRIDE (spec/40_bit_utilities.md R115, R117), the pixel addresses
(spec/20_memory.md R51, R58), the canonical memory (log 15) and the tracker's storage bytes (R55). -/

namespace Sys2Proof.Machine

/-- Settles O11: BFLEN by division with remainder, STRIDE by the laws of `stride`. -/
theorem sizeFunctionLaws : Obligations.SizeFunctionLaws := by
  refine ⟨fun n hn => by unfold bflen; omega, fun w hw => ⟨stride_even w, stride_pos hw, stride_covers w, ?_, ?_⟩⟩
  · have := stride_padding w; omega
  · unfold stride; omega

/-! ### The canonical memory -/

/-- Only addresses from its lower bound on are listed in a canonical memory. -/
theorem Memory.le_of_read_ne {lo a : Nat} {m : Memory} (h : m.wfFrom lo = true) (ha : m.read a ≠ Memory.unlisted) :
    lo ≤ a :=
  Nat.le_of_not_lt fun hlt => ha (Memory.read_below h hlt)

@[simp] theorem Memory.read_cons_self (k : Nat) (b : Byte) (m : Memory) : Memory.read ((k, b) :: m) k = b := by
  simp [Memory.read]

theorem Memory.read_cons_of_ne {k a : Nat} (h : a ≠ k) (b : Byte) (m : Memory) :
    Memory.read ((k, b) :: m) a = m.read a := by
  simp [Memory.read, h]

/-- Canonical memories are their contents: the heads are the lowest address that does not read as unlisted. -/
theorem Memory.eq_of_read_eq {lo : Nat} {m m' : Memory} (h : m.wfFrom lo = true) (h' : m'.wfFrom lo = true)
    (heq : ∀ a, m.read a = m'.read a) : m = m' := by
  induction m generalizing lo m' with
  | nil =>
    cases m' with
    | nil => rfl
    | cons c m' =>
      obtain ⟨k, b⟩ := c
      obtain ⟨_, hb, _⟩ := Memory.wfFrom_cons.mp h'
      exact absurd (by simpa using (heq k).symm) hb
  | cons c m ih =>
    obtain ⟨k, b⟩ := c
    obtain ⟨_, hb, hm⟩ := Memory.wfFrom_cons.mp h
    cases m' with
    | nil => exact absurd (by simpa using heq k) hb
    | cons c' m' =>
      obtain ⟨k', b'⟩ := c'
      obtain ⟨_, hb', hm'⟩ := Memory.wfFrom_cons.mp h'
      have hk : k' ≤ k :=
        Memory.le_of_read_ne (Memory.wfFrom_cons.mpr ⟨Nat.le_refl k', hb', hm'⟩) (by rw [← heq k]; simpa using hb)
      have hk' : k ≤ k' :=
        Memory.le_of_read_ne (Memory.wfFrom_cons.mpr ⟨Nat.le_refl k, hb, hm⟩) (by rw [heq k']; simpa using hb')
      obtain rfl : k = k' := Nat.le_antisymm hk' hk
      obtain rfl : b = b' := by simpa using heq k
      have tails : ∀ a, Memory.read m a = Memory.read m' a := fun a => by
        by_cases ha : a = k
        · rw [Memory.read_below hm (by omega), Memory.read_below hm' (by omega)]
        · have := heq a
          rwa [Memory.read_cons_of_ne ha, Memory.read_cons_of_ne ha] at this
      rw [ih hm hm' tails]

/-- Settles O12: induction over the listed bytes. -/
theorem canonicalMemoriesAreTheirContents : Obligations.CanonicalMemoriesAreTheirContents :=
  fun _ _ => Memory.eq_of_read_eq

/-! ### Pixel addresses -/

/-- A column of the packed row is one of the row's `S` bytes. -/
theorem paddr_div_stride {d : Display} {x : Nat} (hx : x < 8 * d.stride) (y : Nat) : d.paddr x y / d.stride = y := by
  unfold Display.paddr
  rw [Nat.mul_comm, Nat.mul_add_div (by omega), Nat.div_eq_of_lt (by omega), Nat.add_zero]

theorem paddr_mod_stride {d : Display} {x : Nat} (hx : x < 8 * d.stride) (y : Nat) :
    d.paddr x y % d.stride = x / 8 := by
  unfold Display.paddr
  rw [Nat.mul_comm, Nat.mul_add_mod, Nat.mod_eq_of_lt (by omega)]

/-- Settles O13: the address is in the `y`-th group of `S` bytes, and there are `H` groups. -/
theorem pixelAddressesStayInside : Obligations.PixelAddressesStayInside := by
  intro d x y hx hy
  rw [Display.bufLen, Nat.mul_comm, ← Nat.div_lt_iff_lt_mul (by omega), paddr_div_stride hx]
  exact hy

/-- Settles O14: the address is the row and the column's byte, the bit is the column within the byte. -/
theorem pixelsDoNotShareBits : Obligations.PixelsDoNotShareBits := by
  intro d x y x' y' hx hx' haddr hbit
  have hy : y = y' := by rw [← paddr_div_stride hx y, haddr, paddr_div_stride hx']
  have hbyte : x / 8 = x' / 8 := by rw [← paddr_mod_stride hx y, haddr, paddr_mod_stride hx']
  have hrest : x % 8 = x' % 8 := congrArg Fin.val hbit
  exact ⟨by omega, hy⟩

/-! ### The tracker's storage bytes -/

/-- Setting the bits of a list that satisfy a condition sets those and keeps the others. -/
theorem tstBit_foldl_setBit (f : Fin 8 → Bool) (ps : List (Fin 8)) (b : Byte) (q : Fin 8) :
    tstBit (ps.foldl (fun b p => if f p then setBit b p else b) b) q = (tstBit b q || (decide (q ∈ ps) && f q)) := by
  induction ps generalizing b with
  | nil => simp
  | cons p ps ih =>
    rw [List.foldl_cons, ih]
    by_cases hq : q = p
    · subst hq
      cases hf : f q <;> simp [tstBit_setBit]
    · cases hf : f p <;> simp [tstBit_setBit, hq]

/-- R55: bit `q` of storage byte `k`. -/
theorem tstBit_storageByte (t : Tracker) (k : Nat) (q : Fin 8) : tstBit (t.storageByte k) q = t.bit (8 * k + q.val) := by
  have zero : tstBit 0#8 q = false := by revert q; decide
  unfold Tracker.storageByte
  rw [tstBit_foldl_setBit fun p => t.bit (8 * k + p.val)]
  simp [zero]

/-- Settles O15: `i` is eight times its byte plus its bit. -/
theorem trackerStorageLayout : Obligations.TrackerStorageLayout := by
  refine fun t => ⟨by simp [Tracker.storage], fun i => ?_⟩
  rw [tstBit_storageByte, show 8 * (i / 8) + (pbit i).val = i from Nat.div_add_mod i 8]

end Sys2Proof.Machine
end

