-- ==== Sys2Proof/Proofs/DisplayOps.lean ====
section
/-! PROOFS. The operations on the display's own state: writing a pixel, marking rows, whitening the buffer. Of each, what it
does to every pixel and every tracker bit, and that it keeps the display's invariant (spec/10_state.md R22, R28, R34). -/

namespace Sys2Proof.Machine

/-! ### Pixels -/

/-- One pixel of a written display: the written one at its place, every other bit of the packed rows as before (R51). -/
theorem pixel_writePixel {d : Display} (hbuf : d.buf.wf = true) {x y x' y' : Nat} (hx : x < 8 * d.stride)
    (hx' : x' < 8 * d.stride) (want : Bool) :
    (d.writePixel x y want).pixel x' y' = if x' = x ∧ y' = y then want else d.pixel x' y' := by
  have hread : (d.writePixel x y want).pixel x' y' = tstBit (if d.paddr x' y' = d.paddr x y
      then withBit (d.buf.read (d.paddr x y)) (pbit x) want else d.buf.read (d.paddr x' y')) (pbit x') := by
    rw [← Memory.read_write hbuf]; rfl
  rw [hread]
  by_cases haddr : d.paddr x' y' = d.paddr x y
  · rw [if_pos haddr, tstBit_withBit]
    by_cases hbit : pbit x' = pbit x
    · rw [if_pos hbit, if_pos (pixelsDoNotShareBits d x' y' x y hx' hx haddr hbit)]
    · rw [if_neg hbit, if_neg fun h => hbit (by rw [h.1]), Display.pixel, haddr]
  · rw [if_neg haddr, if_neg fun h => haddr (by rw [h.1, h.2]), Display.pixel]

/-- A display with no byte listed is white. -/
theorem pixel_of_buf_nil {d : Display} (h : d.buf = []) (x y : Nat) : d.pixel x y = true := by
  rw [Display.pixel, h]; exact tstBit_ff _

theorem column_lt {d : Display} {x : Nat} (hx : x < d.w) : x < 8 * d.stride :=
  Nat.lt_of_lt_of_le hx (stride_covers d.w)

/-! ### Marking rows -/

/-- MARK_ROW_DIRTY for each row of a list. -/
def Tracker.markRows (t : Tracker) (ys : List Nat) : Tracker := ys.foldl Tracker.markRow t

@[simp] theorem Tracker.length_markRows (t : Tracker) (ys : List Nat) : (t.markRows ys).length = t.length := by
  induction ys generalizing t with
  | nil => rfl
  | cons y ys ih => exact (ih (t.markRow y)).trans (t.length_markRow y)

/-- Marking rows of the display sets their bits, and the aggregate flag when there is one, and no other bit (R162). -/
theorem Tracker.bit_markRows {t : Tracker} {ys : List Nat} (hys : ∀ y ∈ ys, y + 1 < t.length) (i : Nat) :
    (t.markRows ys).bit i = true ↔ t.bit i = true ∨ (i = 0 ∧ ys ≠ []) ∨ ∃ y ∈ ys, i = y + 1 := by
  induction ys generalizing t with
  | nil => simp [Tracker.markRows]
  | cons y ys ih =>
    have hcons : t.markRows (y :: ys) = (t.markRow y).markRows ys := rfl
    rw [hcons, ih fun z hz => by simpa using hys z (by simp [hz]), Tracker.bit_markRow (hys y (by simp))]
    simp only [Bool.or_eq_true, decide_eq_true_eq, List.mem_cons, exists_eq_or_imp, ne_eq, reduceCtorEq, not_false_eq_true,
      and_true]
    tauto

theorem Tracker.Inv.markRows {t : Tracker} {h : Nat} (ht : t.Inv h) {ys : List Nat} (hys : ∀ y ∈ ys, y < h) :
    (t.markRows ys).Inv h := by
  induction ys generalizing t with
  | nil => exact ht
  | cons y ys ih => exact ih (ht.markRow (hys y (by simp))) fun z hz => hys z (by simp [hz])

/-- The rows that hold a black pixel, in row order: those CLEAR_BUFFER marks (R143). -/
def Display.blackRows (d : Display) : List Nat := (List.range d.h).filter d.rowHasBlack

theorem rowHasBlack_iff {d : Display} {y : Nat} : d.rowHasBlack y = true ↔ ∃ x, x < d.w ∧ d.pixel x y = false := by
  simp [Display.rowHasBlack]

theorem mem_blackRows {d : Display} {y : Nat} : y ∈ d.blackRows ↔ y < d.h ∧ ∃ x, x < d.w ∧ d.pixel x y = false := by
  rw [Display.blackRows, List.mem_filter, List.mem_range, rowHasBlack_iff]

/-- Marking rows one after another is marking them in the tracker, if there is one. -/
theorem foldl_markRow (d : Display) (ys : List Nat) :
    ys.foldl Display.markRow d = { d with tracker := d.tracker.map fun t => t.markRows ys } := by
  induction ys generalizing d with
  | nil => cases d with | mk w h buf tr v => cases tr <;> rfl
  | cons y ys ih =>
    rw [List.foldl_cons, ih]
    cases d with | mk w h buf tr v => cases tr <;> rfl

/-- CLEAR_BUFFER leaves the buffer white and the black rows marked (R143). -/
theorem clearBuffer_eq (d : Display) :
    d.clearBuffer = { d with buf := [], tracker := d.tracker.map fun t => t.markRows d.blackRows } := by
  rw [Display.clearBuffer, Display.markBlackRows, ← List.foldl_filter, foldl_markRow]
  rfl

@[simp] theorem clearBuffer_w (d : Display) : d.clearBuffer.w = d.w := by rw [clearBuffer_eq]
@[simp] theorem clearBuffer_h (d : Display) : d.clearBuffer.h = d.h := by rw [clearBuffer_eq]
@[simp] theorem clearBuffer_buf (d : Display) : d.clearBuffer.buf = [] := rfl
@[simp] theorem clearBuffer_v (d : Display) : d.clearBuffer.v = d.v := by rw [clearBuffer_eq]
@[simp] theorem clearBuffer_tracker (d : Display) :
    d.clearBuffer.tracker = d.tracker.map fun t => t.markRows d.blackRows := by rw [clearBuffer_eq]

/-! ### The display's invariant -/

/-- A display whose tracker changes keeps the invariant when the new tracker meets its own. -/
theorem Display.Inv.of_same_buf {d d' : Display} {maxWidth : Nat} (hd : d.Inv maxWidth) (hw : d'.w = d.w) (hh : d'.h = d.h)
    (hbuf : d'.buf = d.buf) (ht : ∀ t, d'.tracker = some t → t.Inv d.h) : d'.Inv maxWidth := by
  obtain ⟨w, h, buf, tr, v⟩ := d'
  obtain rfl : w = d.w := hw
  obtain rfl : h = d.h := hh
  obtain rfl : buf = d.buf := hbuf
  exact ⟨hd.width, hd.height, hd.canonical, hd.bounded, hd.padding, ht⟩

/-- A white display of admitted size meets the invariant when its tracker does. -/
theorem Display.Inv.of_white {d : Display} {maxWidth : Nat} (hw : 1 ≤ d.w ∧ d.w ≤ maxWidth)
    (hh : 1 ≤ d.h ∧ d.h ≤ Config.maxHeight) (hbuf : d.buf = []) (ht : ∀ t, d.tracker = some t → t.Inv d.h) :
    d.Inv maxWidth :=
  ⟨hw, hh, by rw [hbuf]; rfl, by simp [hbuf], fun x y _ _ _ => pixel_of_buf_nil hbuf x y, ht⟩

theorem Display.Inv.toggleV {d : Display} {maxWidth : Nat} (hd : d.Inv maxWidth) : d.toggleV.Inv maxWidth :=
  hd.of_same_buf rfl rfl rfl hd.tracker

theorem Display.Inv.clearTracker {d : Display} {maxWidth : Nat} (hd : d.Inv maxWidth) : d.clearTracker.Inv maxWidth := by
  refine hd.of_same_buf rfl rfl rfl fun t ht => ?_
  obtain ⟨t0, ht0, rfl⟩ := Option.map_eq_some_iff.mp ht
  exact (hd.tracker t0 ht0).clearAll

theorem Display.Inv.markRow {d : Display} {maxWidth y : Nat} (hd : d.Inv maxWidth) (hy : y < d.h) :
    (d.markRow y).Inv maxWidth := by
  refine hd.of_same_buf rfl rfl rfl fun t ht => ?_
  obtain ⟨t0, ht0, rfl⟩ := Option.map_eq_some_iff.mp ht
  exact (hd.tracker t0 ht0).markRow hy

theorem Display.Inv.clearBuffer {d : Display} {maxWidth : Nat} (hd : d.Inv maxWidth) : d.clearBuffer.Inv maxWidth := by
  refine .of_white (by simpa using hd.width) (by simpa using hd.height) rfl fun t ht => ?_
  rw [clearBuffer_tracker] at ht
  obtain ⟨t0, ht0, rfl⟩ := Option.map_eq_some_iff.mp ht
  rw [clearBuffer_h]
  exact (hd.tracker t0 ht0).markRows fun y hy => (mem_blackRows.mp hy).1

/-- Writing a live pixel keeps the padding bits and the canonical form, and writes inside the buffer (R34, R58). -/
theorem Display.Inv.writePixel {d : Display} {maxWidth x y : Nat} (hd : d.Inv maxWidth) (hx : x < d.w) (hy : y < d.h)
    (want : Bool) : (d.writePixel x y want).Inv maxWidth := by
  refine ⟨hd.width, hd.height, Memory.wf_write hd.canonical _ _, fun c hc => ?_, fun x' y' hw hx' hy' => ?_, hd.tracker⟩
  · rcases Memory.mem_write hc with h | h
    · rw [h]; exact pixelAddressesStayInside d x y (column_lt hx) hy
    · exact hd.bounded c h
  · have hw : d.w ≤ x' := hw
    rw [pixel_writePixel hd.canonical (column_lt hx) hx', if_neg (by omega)]
    exact hd.padding x' y' hw hx' hy'

end Sys2Proof.Machine
end

