-- ==== Sys2Proof/Proofs/Invariant.lean ====
section
/-! PROOFS. The invariant of the machine (spec/10_state.md R22, R28, R30, R34): it holds at reset and every step keeps it. -/

namespace Sys2Proof.Machine

/-! ### CONFIGURE's display -/

/-- CONFIGURE's check (R131) on the operands as numbers. -/
theorem configOk_iff {maxWidth : Nat} {width height : S16} : configOk maxWidth width height = true ↔
    (1 ≤ height.toInt ∧ height.toInt ≤ 2047) ∧ 1 ≤ width.toInt ∧ width.toInt ≤ maxWidth := by
  simp only [configOk, dimensionOk, Bool.and_eq_true, decide_eq_true_eq]
  rfl

/-- The display CONFIGURE builds meets the invariant (R131, R281). -/
theorem freshDisplay_inv {maxWidth : Nat} {width height : S16} (h : configOk maxWidth width height = true) (diff : Bool) :
    (freshDisplay (coord width) (coord height) diff).Inv maxWidth := by
  obtain ⟨⟨h1, h2⟩, w1, w2⟩ := configOk_iff.mp h
  have hmax : Config.maxHeight = 2047 := rfl
  refine .of_white ?_ ?_ rfl fun t ht => ?_
  · simp only [freshDisplay_w, coord]; omega
  · simp only [freshDisplay_h, coord]; omega
  · cases diff <;> cases ht
    exact Tracker.clean_inv _

/-! ### What the invariant asks of a change -/

/-- Fields the invariant does not look at. -/
theorem State.Inv.of_same_fields {s t : State} (hs : s.Inv) (hmax : t.maxWidth = s.maxWidth)
    (hdisplay : t.display = s.display) (hcs : t.cs = s.cs) (hlog : t.log = s.log)
    (hdelivered : t.delivered = s.delivered) : t.Inv := by
  obtain ⟨parameter, display, select, delivered⟩ := hs
  exact ⟨by rwa [hmax], by rwa [hmax, hdisplay], by rwa [hcs, hlog], by rwa [hlog, hdelivered]⟩

/-- A new display that meets its own invariant. -/
theorem State.Inv.of_display {s t : State} {d : Display} (hs : s.Inv) (hmax : t.maxWidth = s.maxWidth)
    (hdisplay : t.display = some d) (hd : d.Inv s.maxWidth) (hcs : t.cs = s.cs) (hlog : t.log = s.log)
    (hdelivered : t.delivered = s.delivered) : t.Inv := by
  refine ⟨by rw [hmax]; exact hs.parameter, fun d' h => ?_, by rw [hcs, hlog]; exact hs.select,
    by rw [hlog, hdelivered]; exact hs.delivered⟩
  obtain rfl : d = d' := Option.some.inj (hdisplay.symm.trans h)
  rwa [hmax]

/-- Events appended, with the select state they lead to and a delivered count for each failed transfer among them. -/
theorem State.Inv.of_events {s t : State} (hs : s.Inv) (hmax : t.maxWidth = s.maxWidth)
    (hdisplay : ∀ d, t.display = some d → d.Inv s.maxWidth) {es : List Event} {ns : List Nat} (hlog : t.log = s.log ++ es)
    (hcs : t.cs = es.foldl csAfter s.cs) (hdelivered : t.delivered = s.delivered ++ ns)
    (hns : List.Forall₂ (fun bs n => n ≤ bs.length) (failedCalls es) ns) : t.Inv := by
  refine ⟨by rw [hmax]; exact hs.parameter, by rwa [hmax], ?_, ?_⟩
  · rw [hcs, hlog, csOfLog_append, ← hs.select]
  · rw [hlog, hdelivered, failedCalls_append]
    exact List.rel_append hs.delivered hns

/-- A transaction that succeeded, with the display it left. -/
theorem SentTransaction.inv {d : Display} {calls : List (List Byte)} {s t : State} (h : SentTransaction d calls s t)
    (hs : s.Inv) (hd : d.Inv s.maxWidth) : t.Inv := by
  subst h
  refine hs.of_events rfl (by rintro _ ⟨⟩; exact hd) (es := [.sel] ++ okEvents calls ++ [.desel]) (ns := []) ?_ ?_ ?_ ?_
  · simp
  · simp [csAfter]
  · simp
  · simp [failedCalls, failedCalls_append, failedCalls_okEvents]

/-- The delivered counts of calls that succeeded and the one that failed after them. -/
theorem delivered_of_abort (pre : List (List Byte)) (bs : List Byte) (e : TransportError) (n : Nat) :
    List.Forall₂ (fun bs n => n ≤ bs.length) (failedCalls (okEvents pre ++ [.tx bs (.err e)])) [min n bs.length] := by
  simp [failedCalls, failedCalls_append, failedCalls_okEvents]

/-- A transaction that was aborted, with the display it left. -/
theorem AbortedTransaction.inv {d : Display} {pre : List (List Byte)} {bs : List Byte} {s t : State}
    (h : AbortedTransaction d pre bs s t) (hs : s.Inv) (hd : d.Inv s.maxWidth) : t.Inv := by
  obtain ⟨e, n, rfl⟩ := h
  refine hs.of_events rfl (by rintro _ ⟨⟩; exact hd) (es := [.sel] ++ okEvents pre ++ [.tx bs (.err e)])
    (ns := [min n bs.length]) ?_ ?_ rfl (delivered_of_abort pre bs e n)
  · simp
  · simp [csAfter, csAfter_okEvents]

/-- Transport calls by themselves. -/
theorem runCalls_inv (calls : List (List Byte)) {s : State} (hs : s.Inv) : (runCalls calls s).2.Inv := by
  rcases runCalls_cases calls s with ⟨-, h⟩ | ⟨pre, bs, e, n, -, -, h⟩
  · rw [h]
    refine hs.of_events rfl hs.display (es := okEvents calls) (ns := []) rfl ?_ ?_ ?_
    · exact (csAfter_okEvents calls s.cs).symm
    · exact (List.append_nil _).symm
    · rw [failedCalls_okEvents]; exact .nil
  · rw [h]
    refine hs.of_events rfl hs.display (es := okEvents pre ++ [.tx bs (.err e)]) (ns := [min n bs.length])
      (List.append_assoc ..) ?_ rfl (delivered_of_abort pre bs e n)
    simp [csAfter, csAfter_okEvents]

/-! ### Every instruction and every step -/

/-- Every instruction keeps the invariant. -/
theorem exec_inv {i : Instr} {s t : State} (hs : s.Inv) (h : exec i s = .next t) : t.Inv := by
  cases exec_effect h with
  | unconfigured => exact hs.of_same_fields rfl rfl rfl rfl rfl
  | configured w hh f _ hok => exact hs.of_display rfl rfl (freshDisplay_inv hok f) rfl rfl rfl
  | configError => exact hs.of_same_fields rfl rfl rfl rfl rfl
  | pixelSet x y b d _ hd hx hy =>
    exact hs.of_display rfl rfl (((hs.display d hd).writePixel (coord_lt hx) (coord_lt hy) _).markRow (coord_lt hy)) rfl rfl rfl
  | answered => exact hs.of_same_fields rfl rfl rfl rfl rfl
  | bufferCleared d _ hd => exact hs.of_display rfl rfl (hs.display d hd).clearBuffer rfl rfl rfl
  | held d _ _ hd ht =>
    rcases ht with ht | ht
    · exact ht.inv hs (hs.display d hd).toggleV
    · exact ht.inv hs (hs.display d hd)
  | rendered d _ _ hd _ ht =>
    rcases ht with ht | ⟨_, _, _, ht⟩
    · exact ht.inv hs (hs.display d hd).toggleV.clearTracker
    · exact ht.inv hs (hs.display d hd).toggleV
  | displayCleared d _ _ hd ht =>
    rcases ht with ht | ht
    · exact ht.inv hs (hs.display d hd).toggleV
    · exact ht.inv hs (hs.display d hd)
  | cleared d _ _ hd ht =>
    rcases ht with ht | ht
    · exact ht.inv hs (hs.display d hd).clearBuffer.toggleV
    · exact ht.inv hs (hs.display d hd).clearBuffer
  | unitSent d calls => exact runCalls_inv calls hs

/-- Settles O49: a fault and a taken move touch no field of the invariant, the deselect logs what it does to `CS`, and an
instruction keeps it by `exec_inv`. -/
theorem stepKeepsInvariant : Obligations.StepKeepsInvariant := by
  intro s t hs h
  obtain ⟨-, ⟨u, i, -, -, h⟩ | ⟨-, ⟨-, rfl⟩ | ⟨m, rest, -, ⟨k, rfl⟩ | rfl | ⟨r, i, -, -, h⟩⟩⟩⟩ := step_cases h
  · exact exec_inv (State.Inv.of_same_fields (t := { s with bench := none }) hs rfl rfl rfl rfl rfl) h
  · exact hs
  · exact hs.of_same_fields rfl rfl rfl rfl rfl
  · exact hs.of_events rfl hs.display (es := [.hdesel]) (ns := []) rfl rfl (by simp) .nil
  · exact exec_inv (State.Inv.of_same_fields (t := { s with pending := rest }) hs rfl rfl rfl rfl rfl) h

/-- Settles O50: nothing is configured and nothing is logged; the parameter has the range of its index. -/
theorem resetMeetsInvariant : Obligations.ResetMeetsInvariant := by
  refine ⟨⟨⟨?_, ?_⟩, by rintro _ ⟨⟩, rfl, .nil⟩, rfl, rfl, rfl, rfl⟩
  · exact Nat.le_add_left 1 _
  · exact Config.maxWidthIndex.isLt

end Sys2Proof.Machine
end

