-- ==== Sys2Proof/Proofs/PixelBuffer.lean ====
section
/-! PROOFS. The pixel buffer operations CONFIGURE, SET_PIXEL and CLEAR_BUFFER (spec/41_pixel_buffer.md). -/

namespace Sys2Proof.Machine

/-! ### CONFIGURE -/

theorem exec_configure_ok {s : State} {width height : S16} (h : configOk s.maxWidth width height = true) (diff : Bool) :
    exec (.configure width height diff) s =
      .next (respond .ok none (s.setDisplay (freshDisplay (coord width) (coord height) diff))) :=
  if_pos h

theorem exec_configure_error {s : State} {width height : S16} (h : ¬ configOk s.maxWidth width height = true) (diff : Bool) :
    exec (.configure width height diff) s = .next (respond .errConfig none s) :=
  if_neg h

/-- Settles O16: the display built is `freshDisplay` of the operands. -/
theorem configureBuildsTheDisplay : Obligations.ConfigureBuildsTheDisplay := by
  intro s width height diff w1 w2 h1 h2
  refine ⟨_, exec_configure_ok (configOk_iff.mpr ⟨⟨h1, h2⟩, w1, w2⟩) diff, ?_, ?_, ?_, fun _ => rfl, rfl, fun t ht => ?_⟩
  · exact Int.toNat_of_nonneg (by omega)
  · exact Int.toNat_of_nonneg (by omega)
  · cases diff <;> rfl
  · cases diff <;> cases ht
    exact ⟨Tracker.length_clean _, Tracker.bit_clean _⟩

/-- Settles O17: an operand out of range fails CONFIGURE's check. -/
theorem configureRejectsWithoutChange : Obligations.ConfigureRejectsWithoutChange := by
  intro s width height diff h
  refine exec_configure_error (fun hok => ?_) diff
  obtain ⟨⟨h1, h2⟩, w1, w2⟩ := configOk_iff.mp hok
  omega

/-! ### SET_PIXEL -/

section SetPixel
variable {s : State} {d : Display} {x y : S16} {black : Bool}

/-- The short-circuit of R136. -/
theorem exec_setPixel_same (hd : s.display = some d) (hx : coordOk x d.w = true) (hy : coordOk y d.h = true)
    (hp : d.pixel (coord x) (coord y) = wantedBit black) :
    exec (.setPixel x y black) s = .next (respond .ok none s) := by
  simp only [exec, execSetPixel, requireConfigured_some hd, hx, hy, Bool.and_self, if_true, if_pos hp]

/-- A pixel that changes (R136). -/
theorem exec_setPixel_changed (hd : s.display = some d) (hx : coordOk x d.w = true) (hy : coordOk y d.h = true)
    (hp : ¬ d.pixel (coord x) (coord y) = wantedBit black) :
    exec (.setPixel x y black) s = .next (respond .ok none
      (s.setDisplay ((d.writePixel (coord x) (coord y) (wantedBit black)).markRow (coord y)))) := by
  simp only [exec, execSetPixel, requireConfigured_some hd, hx, hy, Bool.and_self, if_true, if_neg hp]

/-- A coordinate out of range (R137). -/
theorem exec_setPixel_outside (hd : s.display = some d) (h : ¬ (coordOk x d.w = true ∧ coordOk y d.h = true)) :
    exec (.setPixel x y black) s = .next (respond .errRange none s) := by
  rw [← Bool.and_eq_true] at h
  simp only [exec, execSetPixel, requireConfigured_some hd, if_neg h]

end SetPixel

theorem coordOk_of {v : S16} {c n : Nat} (h : v.toInt = c) (hlt : c < n) : coordOk v n = true :=
  coordOk_iff.mpr ⟨by omega, by omega⟩

/-- Settles O18: the display after is the written and marked one; bit by bit by the laws of both. -/
theorem setPixelPaintsAndMarks : Obligations.SetPixelPaintsAndMarks := by
  intro s d x y black cx cy hd hinv hx hy hcx hcy hp
  obtain rfl := coord_of hx
  obtain rfl := coord_of hy
  refine ⟨_, exec_setPixel_changed hd (coordOk_of hx hcx) (coordOk_of hy hcy) hp, rfl, rfl, rfl, fun q => ?_,
    fun a ha => ?_, fun htr => ?_, fun t htr => ⟨t.markRow (coord y), ?_, fun i => ?_⟩⟩
  · rw [markRow_buf, writePixel_buf, Memory.read_write hinv.canonical, if_pos rfl, tstBit_withBit]
    rfl
  · rw [markRow_buf, writePixel_buf, Memory.read_write hinv.canonical, if_neg ha]
  · rw [markRow_tracker, writePixel_tracker, htr]; rfl
  · rw [markRow_tracker, writePixel_tracker, htr]; rfl
  · exact Tracker.bit_markRow (by rw [(hinv.tracker t htr).length]; omega) i

/-- Settles O19: the short-circuit. -/
theorem setPixelSameColourChangesNothing : Obligations.SetPixelSameColourChangesNothing := by
  intro s d x y black cx cy hd hx hy hcx hcy hp
  obtain rfl := coord_of hx
  obtain rfl := coord_of hy
  exact exec_setPixel_same hd (coordOk_of hx hcx) (coordOk_of hy hcy) hp

/-- Settles O20: each side of the range fails a coordinate's check. -/
theorem setPixelOutOfRangeChangesNothing : Obligations.SetPixelOutOfRangeChangesNothing := by
  intro s d x y black hd h
  refine exec_setPixel_outside hd fun ⟨hx, hy⟩ => ?_
  rw [coordOk_iff] at hx hy
  omega

/-- Settles O21: after the first request the pixel has the colour, so the second takes the short-circuit. -/
theorem setPixelTwiceIsOnce : Obligations.SetPixelTwiceIsOnce := by
  intro s d x y black hd hinv x1 x2 y1 y2
  have hx : coordOk x d.w = true := coordOk_iff.mpr ⟨x1, x2⟩
  have hy : coordOk y d.h = true := coordOk_iff.mpr ⟨y1, y2⟩
  by_cases hp : d.pixel (coord x) (coord y) = wantedBit black
  · exact ⟨_, exec_setPixel_same hd hx hy hp, exec_setPixel_same hd hx hy hp⟩
  · refine ⟨_, exec_setPixel_changed hd hx hy hp, exec_setPixel_same rfl hx hy ?_⟩
    have hcolumn := column_lt (coord_lt hx)
    exact (pixel_writePixel hinv.canonical hcolumn hcolumn _).trans (if_pos ⟨rfl, rfl⟩)

/-! ### CLEAR_BUFFER -/

theorem exec_clearBuffer {s : State} {d : Display} (hd : s.display = some d) :
    exec .clearBuffer s = .next (respond .ok none (s.setDisplay d.clearBuffer)) :=
  requireConfigured_some hd _

theorem blackRows_ne_nil_iff {d : Display} :
    d.blackRows ≠ [] ↔ ∃ x y, x < d.w ∧ y < d.h ∧ d.pixel x y = false := by
  rw [← List.isEmpty_eq_false_iff, List.isEmpty_eq_false_iff_exists_mem]
  simp only [mem_blackRows]
  constructor
  · rintro ⟨y, hy, x, hx, hp⟩; exact ⟨x, y, hx, hy, hp⟩
  · rintro ⟨x, y, hx, hy, hp⟩; exact ⟨y, hy, x, hx, hp⟩

section ClearBufferMarks
variable {d : Display} {t : Tracker}

theorem blackRows_inside (ht : t.Inv d.h) : ∀ y ∈ d.blackRows, y + 1 < t.length := fun y hy => by
  have := (mem_blackRows.mp hy).1
  rw [ht.length]; omega

/-- The row bits CLEAR_BUFFER leaves (R143). -/
theorem testRow_markBlackRows (ht : t.Inv d.h) {y : Nat} (hy : y < d.h) :
    (t.markRows d.blackRows).testRow y = true ↔ t.testRow y = true ∨ ∃ x, x < d.w ∧ d.pixel x y = false := by
  simp [Tracker.testRow, Tracker.bit_markRows (blackRows_inside ht), mem_blackRows, hy]

/-- The aggregate flag CLEAR_BUFFER leaves (R143). -/
theorem testAny_markBlackRows (ht : t.Inv d.h) :
    (t.markRows d.blackRows).testAny = true ↔
      t.testAny = true ∨ ∃ x y, x < d.w ∧ y < d.h ∧ d.pixel x y = false := by
  rw [← blackRows_ne_nil_iff]
  simp [Tracker.testAny, Tracker.bit_markRows (blackRows_inside ht)]

end ClearBufferMarks

/-- Settles O22: the display after is `clearBuffer` of the one before. -/
theorem clearBufferWhitensAndMarks : Obligations.ClearBufferWhitensAndMarks := by
  intro s d hd hinv
  refine ⟨_, exec_clearBuffer hd, clearBuffer_w d, clearBuffer_h d, clearBuffer_v d, fun _ => rfl, fun htr => ?_,
    fun t htr => ⟨t.markRows d.blackRows, ?_, Tracker.length_markRows t _, fun y => ?_, ?_⟩⟩
  · rw [clearBuffer_tracker, htr]; rfl
  · rw [clearBuffer_tracker, htr]; rfl
  · exact testRow_markBlackRows (hinv.tracker t htr)
  · exact testAny_markBlackRows (hinv.tracker t htr)

/-! ### The row scan -/

theorem mem_rowBytes {d : Display} {y : Nat} {b : Byte} :
    b ∈ d.rowBytes y ↔ ∃ k, k < d.stride ∧ d.buf.read (y * d.stride + k) = b := by
  rw [Display.rowBytes, Memory.readRange_eq_map]
  simp

/-- A byte that is not white has a bit that is 0. -/
theorem ne_ff_iff {b : Byte} : b ≠ 0xFF#8 ↔ ∃ p, tstBit b p = false := by
  rw [← not_iff_not, not_not, not_exists]
  simp only [Bool.not_eq_false]
  exact ⟨fun h p => by rw [h]; exact tstBit_ff p, fun h => byte_ext fun p => by rw [h p, tstBit_ff]⟩

/-- Column `8 * k + p` of a row is bit `p` of the row's byte `k` (R51). -/
theorem pixel_of_byte (d : Display) (y k : Nat) (p : Fin 8) :
    d.pixel (8 * k + p.val) y = tstBit (d.buf.read (y * d.stride + k)) p := by
  have hbyte : (8 * k + p.val) / 8 = k := by omega
  have hbit : pbit (8 * k + p.val) = p := Fin.ext (by show (8 * k + p.val) % 8 = p.val; omega)
  rw [Display.pixel, Display.paddr, hbyte, hbit]

/-- Settles O23: a 0 bit of a row's byte is a live column, because the padding is 1. -/
theorem rowScanSeesEveryNonWhiteByte : Obligations.RowScanSeesEveryNonWhiteByte := by
  intro d maxWidth y hinv hy
  rw [rowHasBlack_iff]
  constructor
  · rintro ⟨x, hx, hp⟩
    have := column_lt hx
    exact ⟨_, mem_rowBytes.mpr ⟨x / 8, by omega, rfl⟩, ne_ff_iff.mpr ⟨pbit x, hp⟩⟩
  · rintro ⟨b, hb, hne⟩
    obtain ⟨k, hk, rfl⟩ := mem_rowBytes.mp hb
    obtain ⟨p, hp⟩ := ne_ff_iff.mp hne
    rw [← pixel_of_byte] at hp
    refine ⟨8 * k + p.val, Nat.lt_of_not_le fun hpadding => ?_, hp⟩
    rw [hinv.padding _ y hpadding (by omega) hy] at hp
    cases hp

end Sys2Proof.Machine
end

