-- ==== Sys2Proof/Proofs/MachineRules.lean ====
section
/-! PROOFS. Rules of every instruction: what it appends to the log (spec/10_state.md R31, spec/43_frame_sequencer.md R190), what
it does to the display, and what it answers (spec/60_exceptions.md R252, R253). -/

namespace Sys2Proof.Machine

/-- Every operation but CONFIGURE needs a configured block (R257). -/
theorem exec_unconfigured {i : Instr} {s : State} (hi : ∀ w h f, i ≠ .configure w h f) (hd : s.display = none) :
    exec i s = .next (raiseFault .notConfigured s) := by
  cases i with
  | configure w h f => exact absurd rfl (hi w h f)
  | _ => exact requireConfigured_none hd _

/-! ### The bus -/

/-- `t` differs from `s` in nothing that the bus or the transport shows. -/
def QuietOnBus (s t : State) : Prop :=
  t.log = s.log ∧ t.cs = s.cs ∧ t.answers = s.answers ∧ t.draws = s.draws ∧ t.delivered = s.delivered

/-- Everything a request can do on the bus: nothing, a whole transaction, or one cut short (R190, R192). -/
theorem exec_request_bus {i : Instr} {s t : State} (hi : isRequest i = true) (h : exec i s = .next t) :
    ((isTransaction i = false ∨ s.display = none) ∧ QuietOnBus s t) ∨
    (isTransaction i = true ∧ ∃ d calls, calls ≠ [] ∧ SentTransaction d calls s t) ∨
    (isTransaction i = true ∧ ∃ d pre bs, AbortedTransaction d pre bs s t) := by
  cases exec_effect h with
  | unconfigured hd => exact .inl ⟨.inr hd, rfl, rfl, rfl, rfl, rfl⟩
  | configured _ _ _ hi => subst hi; exact .inl ⟨.inl rfl, rfl, rfl, rfl, rfl, rfl⟩
  | configError _ _ _ hi => subst hi; exact .inl ⟨.inl rfl, rfl, rfl, rfl, rfl, rfl⟩
  | pixelSet _ _ _ _ hi => subst hi; exact .inl ⟨.inl rfl, rfl, rfl, rfl, rfl, rfl⟩
  | answered _ _ _ _ ht => exact .inl ⟨.inl ht, rfl, rfl, rfl, rfl, rfl⟩
  | bufferCleared _ hi => subst hi; exact .inl ⟨.inl rfl, rfl, rfl, rfl, rfl, rfl⟩
  | held _ _ hi _ ht =>
    have htr : isTransaction i = true := by rcases hi with rfl | rfl <;> rfl
    rcases ht with ht | ht
    · exact .inr (.inl ⟨htr, _, _, by simp, ht⟩)
    · exact .inr (.inr ⟨htr, _, _, _, ht⟩)
  | rendered _ _ hi _ _ ht =>
    subst hi
    rcases ht with ht | ⟨_, _, _, ht⟩
    · exact .inr (.inl ⟨rfl, _, _, by simp [Display.renderCalls], ht⟩)
    · exact .inr (.inr ⟨rfl, _, _, _, ht⟩)
  | displayCleared _ _ hi _ ht =>
    subst hi
    rcases ht with ht | ht
    · exact .inr (.inl ⟨rfl, _, _, by simp, ht⟩)
    · exact .inr (.inr ⟨rfl, _, _, _, ht⟩)
  | cleared _ _ hi _ ht =>
    subst hi
    rcases ht with ht | ht
    · exact .inr (.inl ⟨rfl, _, _, by simp, ht⟩)
    · exact .inr (.inr ⟨rfl, _, _, _, ht⟩)
  | unitSent _ _ hu => rw [hu] at hi; cases hi

theorem SentTransaction.log {d : Display} {calls : List (List Byte)} {s t : State} (h : SentTransaction d calls s t) :
    t.log = s.log ++ ([.sel] ++ okEvents calls ++ [.desel]) := by
  subst h; simp

theorem AbortedTransaction.log {d : Display} {pre : List (List Byte)} {bs : List Byte} {s t : State}
    (h : AbortedTransaction d pre bs s t) : ∃ e, t.log = s.log ++ ([.sel] ++ okEvents pre ++ [.tx bs (.err e)]) := by
  obtain ⟨e, n, rfl⟩ := h
  exact ⟨e, by simp⟩

/-- Settles O52: the three outcomes of a request on the bus. -/
theorem requestsEmitOneTransaction : Obligations.RequestsEmitOneTransaction := by
  intro i s t hi h
  rcases exec_request_bus hi h with ⟨hquiet, hlog, -⟩ | ⟨htr, d, calls, hne, ht⟩ | ⟨htr, d, pre, bs, ht⟩
  · exact ⟨[], by rw [hlog, List.append_nil], .inl ⟨rfl, hquiet⟩⟩
  · exact ⟨_, ht.log, .inr (.inl ⟨htr, calls, hne, rfl⟩)⟩
  · obtain ⟨e, hlog⟩ := ht.log
    exact ⟨_, hlog, .inr (.inr ⟨htr, pre, bs, e, rfl⟩)⟩

theorem SentTransaction.log_grows {d : Display} {calls : List (List Byte)} {s t : State} (h : SentTransaction d calls s t) :
    ∃ es, t.log = s.log ++ es := ⟨_, h.log⟩

theorem AbortedTransaction.log_grows {d : Display} {pre : List (List Byte)} {bs : List Byte} {s t : State}
    (h : AbortedTransaction d pre bs s t) : ∃ es, t.log = s.log ++ es :=
  h.log.elim fun _ hlog => ⟨_, hlog⟩

theorem runCalls_log (calls : List (List Byte)) (s : State) : ∃ es, (runCalls calls s).2.log = s.log ++ es := by
  rcases runCalls_cases calls s with ⟨-, h⟩ | ⟨pre, bs, e, n, -, -, h⟩
  · exact ⟨_, by rw [h]; rfl⟩
  · exact ⟨_, by rw [h]; exact List.append_assoc ..⟩

/-- Every instruction only appends to `LOG` (R31). -/
theorem exec_log {i : Instr} {s t : State} (h : exec i s = .next t) : ∃ es, t.log = s.log ++ es := by
  cases exec_effect h with
  | unconfigured | configured | configError | pixelSet | answered | bufferCleared => exact ⟨[], (List.append_nil _).symm⟩
  | held _ _ _ _ ht => exact ht.elim (·.log_grows) (·.log_grows)
  | rendered _ _ _ _ _ ht => exact ht.elim (·.log_grows) fun ⟨_, _, _, ht⟩ => ht.log_grows
  | displayCleared _ _ _ _ ht => exact ht.elim (·.log_grows) (·.log_grows)
  | cleared _ _ _ _ ht => exact ht.elim (·.log_grows) (·.log_grows)
  | unitSent _ calls => exact runCalls_log calls s

/-- Settles O51: an instruction appends its events, the deselect its one, and nothing else touches the log. -/
theorem logOnlyGrows : Obligations.LogOnlyGrows := by
  intro s t h
  obtain ⟨-, ⟨u, i, -, -, h⟩ | ⟨-, ⟨-, rfl⟩ | ⟨m, rest, -, ⟨k, rfl⟩ | rfl | ⟨r, i, -, -, h⟩⟩⟩⟩ := step_cases h
  · obtain ⟨es, hes⟩ := exec_log h
    exact ⟨es, hes⟩
  · exact ⟨[], (List.append_nil _).symm⟩
  · exact ⟨[], (List.append_nil _).symm⟩
  · exact ⟨[.hdesel], rfl⟩
  · obtain ⟨es, hes⟩ := exec_log h
    exact ⟨es, hes⟩

/-! ### The display -/

/-- Everything an instruction other than CONFIGURE can do to the display. -/
inductive DisplayChange (i : Instr) (s t : State) (d : Display) : Display → Prop
  /-- Nothing: a query, a request that was refused or aborted, a wire unit. -/
  | kept : DisplayChange i s t d d
  /-- SET_PIXEL on a pixel that changes (R136). -/
  | painted (x y : Nat) (want : Bool) (hi : isTransaction i = false) (hx : x < d.w) (hy : y < d.h) :
      DisplayChange i s t d ((d.writePixel x y want).markRow y)
  /-- CLEAR_BUFFER, or a CLEAR whose transaction was aborted (R143, R211). -/
  | whitened : DisplayChange i s t d d.clearBuffer
  /-- CLEAR (R210). -/
  | whitenedToggled (hi : isTransaction i = true) : DisplayChange i s t d d.clearBuffer.toggleV
  /-- HOLD or CLEAR_DISPLAY, or a RENDER that did not clear the tracker (R196, R203, R206). -/
  | toggled (hi : isTransaction i = true) : DisplayChange i s t d d.toggleV
  /-- A RENDER that answered OK (R195). -/
  | rendered (hi : i = .render) (hr : t.responses = s.responses ++ [⟨.ok, none⟩]) :
      DisplayChange i s t d d.toggleV.clearTracker

theorem SentTransaction.display {d : Display} {calls : List (List Byte)} {s t : State} (h : SentTransaction d calls s t) :
    t.display = some d := by subst h; rfl

theorem AbortedTransaction.display {d : Display} {pre : List (List Byte)} {bs : List Byte} {s t : State}
    (h : AbortedTransaction d pre bs s t) : t.display = some d := by obtain ⟨e, n, rfl⟩ := h; rfl

theorem runCalls_display (calls : List (List Byte)) (s : State) : (runCalls calls s).2.display = s.display := by
  rcases runCalls_cases calls s with ⟨-, h⟩ | ⟨pre, bs, e, n, -, -, h⟩ <;> rw [h] <;> rfl

/-- What exec can do to the display of a configured state. -/
theorem exec_display {i : Instr} {s t : State} {d : Display} (hi : ∀ w h f, i ≠ .configure w h f)
    (h : exec i s = .next t) (hd : s.display = some d) : ∃ d', t.display = some d' ∧ DisplayChange i s t d d' := by
  cases exec_effect h with
  | unconfigured hn => rw [hn] at hd; cases hd
  | configured w hh f hc => exact absurd hc (hi w hh f)
  | configError w hh f hc => exact absurd hc (hi w hh f)
  | pixelSet x y b d0 hc hd0 hx hy =>
    obtain rfl := Option.some.inj (hd0.symm.trans hd)
    subst hc
    exact ⟨_, rfl, .painted _ _ _ rfl (coord_lt hx) (coord_lt hy)⟩
  | answered => exact ⟨d, hd, .kept⟩
  | bufferCleared d0 _ hd0 =>
    obtain rfl := Option.some.inj (hd0.symm.trans hd)
    exact ⟨_, rfl, .whitened⟩
  | held d0 _ hc hd0 ht =>
    obtain rfl := Option.some.inj (hd0.symm.trans hd)
    rcases ht with ht | ht
    · exact ⟨_, ht.display, .toggled (by rcases hc with rfl | rfl <;> rfl)⟩
    · exact ⟨_, ht.display, .kept⟩
  | rendered d0 _ hc hd0 _ ht =>
    obtain rfl := Option.some.inj (hd0.symm.trans hd)
    rcases ht with ht | ⟨_, _, _, ht⟩
    · exact ⟨_, ht.display, .rendered hc (by subst ht; rfl)⟩
    · exact ⟨_, ht.display, .toggled (by subst hc; rfl)⟩
  | displayCleared d0 _ hc hd0 ht =>
    obtain rfl := Option.some.inj (hd0.symm.trans hd)
    rcases ht with ht | ht
    · exact ⟨_, ht.display, .toggled (by subst hc; rfl)⟩
    · exact ⟨_, ht.display, .kept⟩
  | cleared d0 _ hc hd0 ht =>
    obtain rfl := Option.some.inj (hd0.symm.trans hd)
    rcases ht with ht | ht
    · exact ⟨_, ht.display, .whitenedToggled (by subst hc; rfl)⟩
    · exact ⟨_, ht.display, .whitened⟩
  | unitSent _ calls => exact ⟨d, (runCalls_display calls s).trans hd, .kept⟩

/-- No change of the display writes its configuration (R22). -/
theorem DisplayChange.config {i : Instr} {s t : State} {d d' : Display} (h : DisplayChange i s t d d') :
    d'.w = d.w ∧ d'.h = d.h ∧ d'.diff = d.diff := by
  cases h with
  | kept => exact ⟨rfl, rfl, rfl⟩
  | painted => exact ⟨rfl, rfl, by simp [Display.diff]⟩
  | whitened => exact ⟨by simp, by simp, by simp [Display.diff]⟩
  | whitenedToggled => exact ⟨by simp, by simp, by simp [Display.diff]⟩
  | toggled => exact ⟨rfl, rfl, rfl⟩
  | rendered => exact ⟨rfl, rfl, by simp [Display.diff]⟩

/-- Only a transaction changes the polarity (R232). -/
theorem DisplayChange.polarity {i : Instr} {s t : State} {d d' : Display} (h : DisplayChange i s t d d')
    (hi : isTransaction i = false) : d'.v = d.v := by
  cases h with
  | kept => rfl
  | painted => rfl
  | whitened => exact clearBuffer_v d
  | whitenedToggled ht => rw [hi] at ht; cases ht
  | toggled ht => rw [hi] at ht; cases ht
  | rendered hr => subst hr; cases hi

/-- Settles O54: CONFIGURE leaves some display, everything else changes it by a `DisplayChange`. -/
theorem onlyConfigureWritesTheConfiguration : Obligations.OnlyConfigureWritesTheConfiguration := by
  intro i s t d h hd
  by_cases hi : ∀ w h f, i ≠ .configure w h f
  · obtain ⟨d', hd', hchange⟩ := exec_display hi h hd
    exact ⟨d', hd', fun _ => hchange.config⟩
  · simp only [not_forall, not_not] at hi
    obtain ⟨w, hh, f, rfl⟩ := hi
    refine (?_ : ∃ d', t.display = some d').imp fun d' hd' => ⟨hd', fun hc => absurd rfl (hc w hh f)⟩
    by_cases hok : configOk s.maxWidth w hh = true
    · rw [exec_configure_ok hok] at h; cases h; exact ⟨_, rfl⟩
    · rw [exec_configure_error hok] at h; cases h; exact ⟨d, hd⟩

/-- Settles O53: a request that runs no transaction is quiet on the bus and keeps the polarity of the display. -/
theorem onlyTransactionsTouchTheBus : Obligations.OnlyTransactionsTouchTheBus := by
  intro i s t hreq htr h
  have hquiet : QuietOnBus s t := by
    rcases exec_request_bus hreq h with ⟨-, hquiet⟩ | ⟨ht, -⟩ | ⟨ht, -⟩
    · exact hquiet
    · rw [htr] at ht; cases ht
    · rw [htr] at ht; cases ht
  obtain ⟨hlog, hcs, hanswers, hdraws, hdelivered⟩ := hquiet
  refine ⟨hlog, hcs, hanswers, hdraws, hdelivered, fun hi => ?_⟩
  cases hd : s.display with
  | none =>
    rw [exec_unconfigured hi hd] at h
    cases h
    exact congrArg _ hd
  | some d =>
    obtain ⟨d', hd', hchange⟩ := exec_display hi h hd
    rw [hd', Option.map_some, Option.map_some, hchange.polarity htr]

end Sys2Proof.Machine
end

