-- ==== Sys2Proof/Proofs/Marks.lean ====
section
/-! PROOFS. What the marks of the change tracker say over an operation: which of them are cleared (spec/42_change_tracker.md
R160, R167), and what a clean row kept (R169). -/

namespace Sys2Proof.Machine

/-! ### Marking clears no bit -/

theorem Tracker.bit_set_of_bit {t : Tracker} {i : Nat} (h : t.bit i = true) (k : Nat) :
    Tracker.bit (t.set k true) i = true := by
  by_cases hk : k < t.length
  · rw [Tracker.bit_set hk, h, Bool.or_true]
  · rw [List.set_eq_of_length_le (by omega), h]

theorem Tracker.bit_markRow_of_bit {t : Tracker} {i : Nat} (h : t.bit i = true) (y : Nat) : (t.markRow y).bit i = true :=
  Tracker.bit_set_of_bit (Tracker.bit_set_of_bit h 0) (y + 1)

theorem Tracker.bit_markRows_of_bit {t : Tracker} {i : Nat} (h : t.bit i = true) (ys : List Nat) :
    (t.markRows ys).bit i = true := by
  induction ys generalizing t with
  | nil => exact h
  | cons y ys ih => exact ih (Tracker.bit_markRow_of_bit h y)

/-! ### The bytes of a row -/

/-- Two displays of one width whose buffers read alike over a row hold the same bytes there. -/
theorem rowBytes_congr {d d' : Display} {y : Nat} (hw : d'.w = d.w)
    (h : ∀ k, k < d.stride → d'.buf.read (y * d.stride + k) = d.buf.read (y * d.stride + k)) :
    d'.rowBytes y = d.rowBytes y := by
  have hstride : d'.stride = d.stride := congrArg Machine.stride hw
  rw [Display.rowBytes, Display.rowBytes, hstride, Memory.readRange_eq_map, Memory.readRange_eq_map]
  exact List.map_congr_left fun k hk => h k (List.mem_range.mp hk)

/-- Writing a pixel of another row keeps a row's bytes (R51). -/
theorem rowBytes_writePixel {d : Display} (hbuf : d.buf.wf = true) {x y y' : Nat} (hx : x < d.w) (hy : y ≠ y') (want : Bool) :
    (d.writePixel x y' want).rowBytes y = d.rowBytes y := by
  refine rowBytes_congr rfl fun k hk => ?_
  have otherRow : y * d.stride + k ≠ d.paddr x y' := fun h => hy <| by
    rw [← paddr_div_stride (column_lt hx) y', ← h, Nat.mul_comm, Nat.mul_add_div (by omega), Nat.div_eq_of_lt hk,
      Nat.add_zero]
  rw [writePixel_buf, Memory.read_write hbuf, if_neg otherRow]

/-- Whitening the buffer keeps the bytes of a row that holds no black pixel (R144). -/
theorem rowBytes_clearBuffer {d : Display} {maxWidth y : Nat} (hd : d.Inv maxWidth) (hy : y < d.h)
    (hwhite : y ∉ d.blackRows) : d.clearBuffer.rowBytes y = d.rowBytes y := by
  refine rowBytes_congr (clearBuffer_w d) fun k hk => ?_
  have hscan : ¬ d.rowHasBlack y = true := fun h => hwhite (mem_blackRows.mpr ⟨hy, rowHasBlack_iff.mp h⟩)
  rw [rowScanSeesEveryNonWhiteByte d maxWidth y hd hy] at hscan
  by_contra hne
  exact hscan ⟨_, mem_rowBytes.mpr ⟨k, hk, rfl⟩, fun h => hne (by rw [h]; rfl)⟩

/-! ### Marks and rows over one operation -/

/-- What a change of the display does to the marks: it marks rows and keeps the bytes of every other one, or it is a RENDER
that answered OK and cleared them all. -/
theorem DisplayChange.marks {i : Instr} {s t : State} {d d' : Display} {tr tr' : Tracker} (h : DisplayChange i s t d d')
    (htr : d.tracker = some tr) (htr' : d'.tracker = some tr') :
    (∃ ys, tr' = tr.markRows ys ∧ (∀ y ∈ ys, y < d.h) ∧
      ∀ maxWidth y, d.Inv maxWidth → y < d.h → y ∉ ys → d'.rowBytes y = d.rowBytes y) ∨
    (i = .render ∧ t.responses = s.responses ++ [⟨.ok, none⟩] ∧ tr' = tr.clearAll) := by
  cases h with
  | kept =>
    obtain rfl := Option.some.inj (htr.symm.trans htr')
    exact .inl ⟨[], rfl, by simp, fun _ _ _ _ _ => rfl⟩
  | painted x y want _ hx hy =>
    rw [markRow_tracker, writePixel_tracker, htr] at htr'
    cases htr'
    exact .inl ⟨[y], rfl, by simpa using hy, fun _ _ hinv _ hrow =>
      rowBytes_writePixel hinv.canonical hx (by simpa using hrow) want⟩
  | whitened =>
    rw [clearBuffer_tracker, htr] at htr'
    cases htr'
    exact .inl ⟨_, rfl, fun y hy => (mem_blackRows.mp hy).1, fun _ _ => rowBytes_clearBuffer⟩
  | whitenedToggled =>
    rw [toggleV_tracker, clearBuffer_tracker, htr] at htr'
    cases htr'
    exact .inl ⟨_, rfl, fun y hy => (mem_blackRows.mp hy).1, fun _ _ => rowBytes_clearBuffer⟩
  | toggled =>
    rw [toggleV_tracker, htr] at htr'
    cases htr'
    exact .inl ⟨[], rfl, by simp, fun _ _ _ _ _ => rfl⟩
  | rendered hi hresponse =>
    rw [clearTracker_tracker, toggleV_tracker, htr] at htr'
    cases htr'
    exact .inr ⟨hi, hresponse, rfl⟩

/-- Settles O57: marking rows clears no bit, so it was the RENDER. -/
theorem onlyASuccessfulRenderClearsMarks : Obligations.OnlyASuccessfulRenderClearsMarks := by
  intro i s t d d' tr tr' k hi h hd hd' htr htr' hset hclear
  obtain ⟨d1, hd1, hchange⟩ := exec_display hi h hd
  obtain rfl := Option.some.inj (hd'.symm.trans hd1)
  rcases hchange.marks htr htr' with ⟨ys, rfl, -⟩ | ⟨hrender, hresponse, rfl⟩
  · rw [Tracker.bit_markRows_of_bit hset] at hclear
    cases hclear
  · exact ⟨hrender, hresponse, Tracker.bit_clearAll tr⟩

/-- A row that marking rows of the display left clean was clean and is none of them. -/
theorem testRow_markRows_eq_false {t : Tracker} {ys : List Nat} (hys : ∀ y ∈ ys, y + 1 < t.length) {y : Nat}
    (h : (t.markRows ys).testRow y = false) : t.testRow y = false ∧ y ∉ ys := by
  have hbit : ¬ (t.markRows ys).bit (y + 1) = true := by simpa [Tracker.testRow] using h
  rw [Tracker.bit_markRows hys, not_or, not_or] at hbit
  obtain ⟨hclean, -, hrow⟩ := hbit
  exact ⟨Bool.eq_false_iff.mpr hclean, fun hy => hrow ⟨y, hy, rfl⟩⟩

/-- Settles O58: a clean row is none of the marked ones. -/
theorem cleanRowsKeepTheirBytes : Obligations.CleanRowsKeepTheirBytes := by
  intro i s t d d' tr tr' y hi hrender h hd hinv hd' htr htr' hy hclean
  obtain ⟨d1, hd1, hchange⟩ := exec_display hi h hd
  obtain rfl := Option.some.inj (hd'.symm.trans hd1)
  rcases hchange.marks htr htr' with ⟨ys, rfl, hys, hbytes⟩ | ⟨hr, -⟩
  · have inside : ∀ z ∈ ys, z + 1 < tr.length := fun z hz => by
      rw [(hinv.tracker tr htr).length]; have := hys z hz; omega
    obtain ⟨hclean, hrow⟩ := testRow_markRows_eq_false inside hclean
    exact ⟨hclean, hbytes _ y hinv hy hrow⟩
  · exact absurd hr hrender

end Sys2Proof.Machine
end

