-- ==== Sys2Proof/Proofs/Responses.lean ====
section
/-! PROOFS. What a request answers (spec/60_exceptions.md R252, R253). -/

namespace Sys2Proof.Machine

/-- An operation that needs the display completes when it does on every display. -/
theorem requireConfigured_exists {s : State} {k : Display → Host.Outcome State Fault Refusal}
    (hk : ∀ d, ∃ t, k d = .next t) : ∃ t, requireConfigured s k = .next t := by
  cases hd : s.display with
  | none => exact ⟨_, requireConfigured_none hd k⟩
  | some d => rw [requireConfigured_some hd]; exact hk d

/-- Every request gives a next state: only wire units stop (R94). -/
theorem exec_request_next {i : Instr} (hi : isRequest i = true) (s : State) : ∃ t, exec i s = .next t := by
  cases i with
  | configure w h f =>
    by_cases hok : configOk s.maxWidth w h = true
    · exact ⟨_, exec_configure_ok hok f⟩
    · exact ⟨_, exec_configure_error hok f⟩
  | setPixel x y b =>
    refine requireConfigured_exists fun d => ?_
    split
    · split <;> exact ⟨_, rfl⟩
    · exact ⟨_, rfl⟩
  | clearBuffer => exact requireConfigured_exists fun d => ⟨_, rfl⟩
  | render => exact requireConfigured_exists fun d => ⟨_, rfl⟩
  | hold => exact requireConfigured_exists fun d => ⟨_, rfl⟩
  | clearDisplay => exact requireConfigured_exists fun d => ⟨_, rfl⟩
  | clear => exact requireConfigured_exists fun d => ⟨_, rfl⟩
  | size => exact requireConfigured_exists fun d => ⟨_, rfl⟩
  | isRowDirty row =>
    refine requireConfigured_exists fun d => ?_
    split
    · split <;> exact ⟨_, rfl⟩
    · exact ⟨_, rfl⟩
  | isAnyDirty =>
    refine requireConfigured_exists fun d => ?_
    split <;> exact ⟨_, rfl⟩
  | wireWriteLine | wireHold | wireClear | wireTrailer => cases hi

/-- R253: the statuses and values a request may answer. -/
def AdmittedResponse (i : Instr) (r : Response) : Prop :=
  (∀ e, r.status = .errTransport e → isTransaction i = true) ∧
  (r.status = .errConfig → ∃ w h f, i = .configure w h f) ∧
  (r.status = .errRange → (∃ x y b, i = .setPixel x y b) ∨ ∃ row, i = .isRowDirty row) ∧
  (r.value ≠ none → r.status = .ok ∧ (i = .size ∨ i = .isAnyDirty ∨ ∃ row, i = .isRowDirty row))

theorem admittedResponse_ok (i : Instr) : AdmittedResponse i ⟨.ok, none⟩ := by simp [AdmittedResponse]

theorem admittedResponse_errTransport {i : Instr} (hi : isTransaction i = true) (e : TransportError) :
    AdmittedResponse i ⟨.errTransport e, none⟩ := by simp [AdmittedResponse, hi]

/-- `t` is `s` after one response and no fault. -/
def AnsweredOnce (i : Instr) (s t : State) : Prop :=
  ∃ r, t.responses = s.responses ++ [r] ∧ t.fault = s.fault ∧ AdmittedResponse i r

theorem SentTransaction.answeredOnce {i : Instr} {d : Display} {calls : List (List Byte)} {s t : State}
    (h : SentTransaction d calls s t) : AnsweredOnce i s t := by
  subst h; exact ⟨_, rfl, rfl, admittedResponse_ok i⟩

theorem AbortedTransaction.answeredOnce {i : Instr} {d : Display} {pre : List (List Byte)} {bs : List Byte} {s t : State}
    (h : AbortedTransaction d pre bs s t) (hi : isTransaction i = true) : AnsweredOnce i s t := by
  obtain ⟨e, n, rfl⟩ := h; exact ⟨_, rfl, rfl, admittedResponse_errTransport hi e⟩

/-- A request of a configured block, and CONFIGURE always, answers once (R83, R253). -/
theorem exec_request_answers {i : Instr} {s t : State} (hreq : isRequest i = true)
    (hconf : (∃ w h f, i = .configure w h f) ∨ s.display ≠ none) (h : exec i s = .next t) : AnsweredOnce i s t := by
  cases exec_effect h with
  | unconfigured hd hi =>
    rcases hconf with ⟨w, hh, f, rfl⟩ | hd'
    · exact absurd rfl (hi w hh f)
    · exact absurd hd hd'
  | configured => exact ⟨_, rfl, rfl, admittedResponse_ok i⟩
  | configError w hh f hi => exact ⟨_, rfl, rfl, by simp [AdmittedResponse, hi]⟩
  | pixelSet => exact ⟨_, rfl, rfl, admittedResponse_ok i⟩
  | answered st v d hd ht hr hi herr hv hst =>
    refine ⟨_, rfl, rfl, fun e he => ?_, fun he => ?_, herr, hv⟩
    · rcases hst with rfl | rfl <;> cases he
    · rcases hst with rfl | rfl <;> cases he
  | bufferCleared => exact ⟨_, rfl, rfl, admittedResponse_ok i⟩
  | held _ _ hi _ ht =>
    rcases ht with ht | ht
    · exact ht.answeredOnce
    · exact ht.answeredOnce (by rcases hi with rfl | rfl <;> rfl)
  | rendered _ _ hi _ _ ht =>
    rcases ht with ht | ⟨_, _, _, ht⟩
    · exact ht.answeredOnce
    · exact ht.answeredOnce (by subst hi; rfl)
  | displayCleared _ _ hi _ ht =>
    rcases ht with ht | ht
    · exact ht.answeredOnce
    · exact ht.answeredOnce (by subst hi; rfl)
  | cleared _ _ hi _ ht =>
    rcases ht with ht | ht
    · exact ht.answeredOnce
    · exact ht.answeredOnce (by subst hi; rfl)
  | unitSent _ _ hu => rw [hu] at hreq; cases hreq

/-- Settles O56: a request completes, and its next state is one response away. -/
theorem eachRequestAnswersItsStatuses : Obligations.EachRequestAnswersItsStatuses := by
  intro i s hreq hconf
  obtain ⟨t, h⟩ := exec_request_next hreq s
  obtain ⟨r, hresponses, hfault, hadmitted⟩ := exec_request_answers hreq hconf h
  exact ⟨t, r, h, hresponses, hfault, hadmitted⟩

theorem runCalls_responses (calls : List (List Byte)) (s : State) : (runCalls calls s).2.responses = s.responses := by
  rcases runCalls_cases calls s with ⟨-, h⟩ | ⟨pre, bs, e, n, -, -, h⟩ <;> rw [h] <;> rfl

/-- The status a state's one new response has. -/
theorem status_of_responses {rs rs' : List Response} {st st' : Status} {v v' : Option Value}
    (h : rs' = rs ++ [⟨st, v⟩]) (h' : rs' = rs ++ [⟨st', v'⟩]) : st = st' := by
  have := List.append_cancel_left (h.symm.trans h')
  injection this with hr
  injection hr

/-- No transaction answers a range error. -/
theorem SentTransaction.no_range_error {d : Display} {calls : List (List Byte)} {s t : State} {st : Status}
    {v : Option Value} (h : SentTransaction d calls s t) (hr : t.responses = s.responses ++ [⟨st, v⟩])
    (hst : st = .errConfig ∨ st = .errRange) : False := by
  subst h
  have := status_of_responses hr rfl
  rcases hst with rfl | rfl <;> cases this

theorem AbortedTransaction.no_range_error {d : Display} {pre : List (List Byte)} {bs : List Byte} {s t : State} {st : Status}
    {v : Option Value} (h : AbortedTransaction d pre bs s t) (hr : t.responses = s.responses ++ [⟨st, v⟩])
    (hst : st = .errConfig ∨ st = .errRange) : False := by
  obtain ⟨e, n, rfl⟩ := h
  have := status_of_responses hr rfl
  rcases hst with rfl | rfl <;> cases this

/-- An instruction whose new response is a range error changed nothing else (R252). -/
theorem exec_range_error {i : Instr} {s t : State} {st : Status} {v : Option Value} (h : exec i s = .next t)
    (hr : t.responses = s.responses ++ [⟨st, v⟩]) (hst : st = .errConfig ∨ st = .errRange) :
    t = { s with responses := t.responses } := by
  have not_ok {v' : Option Value} (h : t.responses = s.responses ++ [⟨.ok, v'⟩]) : False := by
    have := status_of_responses hr h
    rcases hst with rfl | rfl <;> cases this
  cases exec_effect h with
  | unconfigured => simp at hr
  | configured => exact (not_ok rfl).elim
  | configError => rfl
  | pixelSet => exact (not_ok rfl).elim
  | answered => rfl
  | bufferCleared => exact (not_ok rfl).elim
  | held _ _ _ _ ht => exact (ht.elim (·.no_range_error hr hst) (·.no_range_error hr hst)).elim
  | rendered _ _ _ _ _ ht =>
    exact (ht.elim (·.no_range_error hr hst) fun ⟨_, _, _, ht⟩ => ht.no_range_error hr hst).elim
  | displayCleared _ _ _ _ ht => exact (ht.elim (·.no_range_error hr hst) (·.no_range_error hr hst)).elim
  | cleared _ _ _ _ ht => exact (ht.elim (·.no_range_error hr hst) (·.no_range_error hr hst)).elim
  | unitSent _ calls => rw [runCalls_responses] at hr; simp at hr

/-- Settles O55: of all effects only the two error answers have such a response. -/
theorem rangeErrorsChangeNothing : Obligations.RangeErrorsChangeNothing := by
  rintro i s t v h (hr | hr)
  · exact exec_range_error h hr (.inl rfl)
  · exact exec_range_error h hr (.inr rfl)

end Sys2Proof.Machine
end

