-- ==== Sys2Proof/Proofs/Queries.lean ====
section
/-! PROOFS. The requests that only answer: SIZE (spec/41_pixel_buffer.md R150), IS_ROW_DIRTY and IS_ANY_DIRTY
(spec/42_change_tracker.md R168, R170, R172); and MARK_ROW_DIRTY bit by bit (R162). -/

namespace Sys2Proof.Machine

/-- Settles O24: SIZE answers from the display, or there is none. -/
theorem sizeAnswersTheDimensions : Obligations.SizeAnswersTheDimensions :=
  fun _ => ⟨fun _ hd => requireConfigured_some hd _, fun hd => requireConfigured_none hd _⟩

section Queries
variable {s : State} {d : Display}

/-- IS_ROW_DIRTY answers whether a RENDER would send the row (R170). -/
theorem exec_isRowDirty_inside (hd : s.display = some d) {row : S16} (hrow : coordOk row d.h = true) :
    exec (.isRowDirty row) s = .next (respond .ok (some (.bit (d.selected (coord row)))) s) := by
  simp only [exec, execIsRowDirty, requireConfigured_some hd, if_pos hrow, Display.selected]
  cases d.tracker <;> rfl

theorem exec_isRowDirty_outside (hd : s.display = some d) {row : S16} (hrow : ¬ coordOk row d.h = true) :
    exec (.isRowDirty row) s = .next (respond .errRange none s) := by
  simp only [exec, execIsRowDirty, requireConfigured_some hd, if_neg hrow]

/-- IS_ANY_DIRTY answers whether a RENDER would take the full path (R172, R195). -/
theorem exec_isAnyDirty (hd : s.display = some d) :
    exec .isAnyDirty s = .next (respond .ok (some (.bit (!d.nothingDirty))) s) := by
  simp only [exec, execIsAnyDirty, requireConfigured_some hd, Display.nothingDirty]
  cases d.tracker with
  | none => rfl
  | some t => simp only [Bool.not_not]

/-- Two answers to one query are the same only if their values are. -/
theorem next_respond_inj {st st' : Status} {v v' : Option Value} :
    (Host.Outcome.next (respond st v s) : Host.Outcome State Fault Refusal) = .next (respond st' v' s) ↔
      st = st' ∧ v = v' := by
  constructor
  · intro h
    have := congrArg State.responses (Host.Outcome.next.inj h)
    simpa using this
  · rintro ⟨rfl, rfl⟩; rfl

end Queries

/-- Settles O25: `selected` in the two modes. -/
theorem rowDirtyQueryAnswers : Obligations.RowDirtyQueryAnswers := by
  intro s d row hd
  refine ⟨fun h => exec_isRowDirty_outside hd fun hrow => ?_, fun y hy hlt => ?_⟩
  · rw [coordOk_iff] at hrow; omega
  · obtain rfl := coord_of hy
    rw [exec_isRowDirty_inside hd (coordOk_of hy hlt)]
    exact ⟨fun htr => by rw [Display.selected, htr]; rfl, fun t htr => by rw [Display.selected, htr]; rfl⟩

/-- Settles O26: `nothingDirty` in the two modes. -/
theorem anyDirtyQueryAnswers : Obligations.AnyDirtyQueryAnswers := by
  intro s d hd
  rw [exec_isAnyDirty hd]
  refine ⟨fun htr => by rw [Display.nothingDirty, htr]; rfl, fun t htr => ?_⟩
  rw [Display.nothingDirty, htr]
  simp only [Bool.not_not]
  rfl

/-- RENDER takes the full path without a tracker, or with its aggregate flag set (R195). -/
theorem nothingDirty_eq_false {d : Display} :
    d.nothingDirty = false ↔ ∀ t, d.tracker = some t → t.testAny = true := by
  rw [Display.nothingDirty]
  cases d.tracker <;> simp

/-- R168 on the display: something is dirty exactly when some row is. -/
theorem nothingDirty_eq_false_iff {d : Display} {maxWidth : Nat} (hd : d.Inv maxWidth) :
    d.nothingDirty = false ↔ ∃ y, y < d.h ∧ d.selected y = true := by
  constructor
  · intro h
    obtain ⟨y, hy⟩ := List.exists_mem_of_ne_nil _ (selectedRows_ne_nil hd (nothingDirty_eq_false.mp h))
    exact ⟨y, mem_selectedRows.mp hy⟩
  · rintro ⟨y, hy, hrow⟩
    refine nothingDirty_eq_false.mpr fun t htr => (hd.tracker t htr).aggregate.mpr ⟨y + 1, by omega, by omega, ?_⟩
    rwa [Display.selected, htr] at hrow

/-- Every row of a display can be written as an operand (R81). -/
theorem exists_operand {y h : Nat} (hy : y < h) (hh : h ≤ Config.maxHeight) : ∃ row : S16, row.toInt = y := by
  have hh : h ≤ 2047 := hh
  refine ⟨BitVec.ofNat 16 y, ?_⟩
  rw [BitVec.toInt_eq_toNat_of_lt] <;> rw [BitVec.toNat_ofNat, Nat.mod_eq_of_lt (by omega)]
  omega

/-- Settles O27: both answers are 1 exactly when something is dirty. -/
theorem anyDirtyExactlyWhenSomeRowIs : Obligations.AnyDirtyExactlyWhenSomeRowIs := by
  intro s d hd hinv
  rw [exec_isAnyDirty hd, next_respond_inj]
  simp only [true_and, Option.some.injEq, Value.bit.injEq, Bool.not_eq_true', nothingDirty_eq_false_iff hinv]
  constructor
  · rintro ⟨y, hy, hrow⟩
    obtain ⟨row, hcoord⟩ := exists_operand hy hinv.height.2
    refine ⟨row, ?_⟩
    rw [exec_isRowDirty_inside hd (coordOk_of hcoord hy), coord_of hcoord, hrow]
  · rintro ⟨row, h⟩
    by_cases hrow : coordOk row d.h = true
    · rw [exec_isRowDirty_inside hd hrow, next_respond_inj] at h
      exact ⟨coord row, coord_lt hrow, by simpa using h⟩
    · rw [exec_isRowDirty_outside hd hrow, next_respond_inj] at h
      cases h.1

/-- Settles O28: `bit_markRow` as an equivalence. -/
theorem markRowDirtySetsTwoBits : Obligations.MarkRowDirtySetsTwoBits := by
  intro t h y hlength hy
  refine ⟨by rw [Tracker.length_markRow, hlength], fun i => ?_⟩
  rw [Tracker.bit_markRow (by omega), Bool.or_eq_true, Bool.or_eq_true, decide_eq_true_eq, decide_eq_true_eq, or_assoc]

end Sys2Proof.Machine
end

