-- ==== Sys2Proof/Proofs/WireUnits.lean ====
section
/-! PROOFS. The wire units run by themselves (spec/30_encoding.md R86 to R94; log 3): each is the transport calls of its unit. -/

namespace Sys2Proof.Machine

theorem runCalls_singleton (bs : List Byte) (s : State) : runCalls [bs] s = xfer bs s := by
  simp only [runCalls]
  cases h : xfer bs s with
  | mk r s' => cases r <;> rfl

section Units
variable {s : State} {d : Display}

theorem exec_wireHold (hd : s.display = some d) (v : Bool) :
    exec (.wireHold v) s = .next (runCalls [holdFrame v] s).2 := by
  rw [runCalls_singleton]; exact requireConfigured_some hd _

theorem exec_wireClear (hd : s.display = some d) (v : Bool) :
    exec (.wireClear v) s = .next (runCalls [clearFrame v] s).2 := by
  rw [runCalls_singleton]; exact requireConfigured_some hd _

theorem exec_wireTrailer (hd : s.display = some d) : exec .wireTrailer s = .next (runCalls [trailer] s).2 := by
  rw [runCalls_singleton]; exact requireConfigured_some hd _

/-- WIRE_WRITE_LINE for row `y` of the display (R86, R87). -/
theorem exec_wireWriteLine (hd : s.display = some d) {rhi : BitVec 5} {rlo : Byte} {y : Nat}
    (hrow : rowIndexOf rhi rlo = y + 1) (hy : y < d.h) (v : Bool) :
    exec (.wireWriteLine rhi v rlo) s = .next (runCalls [[unitByte0 rhi false v true, rlo], d.rowBytes y] s).2 := by
  simp only [exec, execWireWriteLine, requireConfigured_some hd, hrow]
  rw [if_pos (by omega), sendLine_eq, Nat.add_sub_cancel]

/-- A header off the display (R94, log 6). -/
theorem exec_wireWriteLine_off (hd : s.display = some d) {rhi : BitVec 5} {rlo : Byte}
    (hrow : ¬ (1 ≤ rowIndexOf rhi rlo ∧ rowIndexOf rhi rlo ≤ d.h)) (v : Bool) :
    exec (.wireWriteLine rhi v rlo) s = .refused .rowNotOnDisplay := by
  simp only [exec, execWireWriteLine, requireConfigured_some hd]
  rw [if_neg hrow]

end Units

/-- The header byte as the sum of its fields (R90). -/
theorem toNat_unitByte0_header :
    ∀ (rhi : BitVec 5) (v : Bool), (unitByte0 rhi false v true).toNat = 1 + (if v then 2 else 0) + 8 * rhi.toNat := by
  decide

/-- Settles O41: two calls of which none, the first or the second fails. -/
theorem writeLineUnitSendsHeaderAndRow : Obligations.WriteLineUnitSendsHeaderAndRow := by
  intro s d rhi v rlo y hd hrow hy
  refine ⟨unitByte0 rhi false v true, toNat_unitByte0_header rhi v, fun h0 h1 => ?_, fun e n h0 => ?_, fun e n h0 h1 => ?_⟩
  all_goals rw [exec_wireWriteLine hd hrow hy]
  · have hok : ∀ k, k < 2 → s.answerAt k = .ok
      | 0, _ => h0
      | 1, _ => h1
    rw [runCalls_ok (calls := [_, _]) hok]
    rfl
  · rw [runCalls_err (k := 0) rfl (fun j hj => absurd hj (Nat.not_lt_zero j)) h0]
    simp [okEvents]
  · rw [runCalls_err (k := 1) rfl (fun j hj => by rw [Nat.lt_one_iff.mp hj]; exact h0) h1]
    simp [okEvents]

/-- Settles O42: row index 0 and a row index above `H` fail the unit's check. -/
theorem writeLineUnitStopsOffTheDisplay : Obligations.WriteLineUnitStopsOffTheDisplay :=
  fun _ _ _ v _ hd h => exec_wireWriteLine_off hd (by omega) v

/-- A unit of one call of two bytes: sent, or failed with the part delivered. -/
theorem exec_of_two_byte_call {i : Instr} {s : State} {b0 b1 : Byte} (h : exec i s = .next (runCalls [[b0, b1]] s).2) :
    (s.answerAt 0 = .ok → exec i s = .next { s.afterCalls 1 with log := s.log ++ [.tx [b0, b1] .ok] }) ∧
    (∀ e n, s.answerAt 0 = .err e n → exec i s = .next { s.afterCalls 1 with
      log := s.log ++ [.tx [b0, b1] (.err e)]
      delivered := s.delivered ++ [min n 2] }) := by
  rw [h, runCalls_singleton]
  exact ⟨fun hok => by rw [xfer_ok hok]; rfl, fun e n herr => by rw [xfer_err herr]; rfl⟩

/-- Settles O43: each unit is one call of its two bytes. -/
theorem twoByteUnitsSendTheirBytes : Obligations.TwoByteUnitsSendTheirBytes := by
  rintro s d v i bs hd (⟨rfl, rfl⟩ | ⟨rfl, rfl⟩ | ⟨rfl, rfl⟩)
  · exact exec_of_two_byte_call (exec_wireHold hd v)
  · rw [← clearFrame_eq]; exact exec_of_two_byte_call (exec_wireClear hd v)
  · exact exec_of_two_byte_call (exec_wireTrailer hd)

end Sys2Proof.Machine
end

