-- ==== Sys2Proof/Proofs/Transactions.lean ====
section
/-! PROOFS. The transactions RENDER, HOLD, CLEAR_DISPLAY and CLEAR (spec/43_frame_sequencer.md), each with the transport's
answers given. -/

namespace Sys2Proof.Machine

/-! ### The two-byte frames -/

section TwoByteFrames
variable {s : State} {d : Display}

theorem exec_hold (hd : s.display = some d) : exec .hold s = finish (shortTransaction d (holdFrame d.v) s) :=
  requireConfigured_some hd _

theorem exec_clearDisplay (hd : s.display = some d) :
    exec .clearDisplay s = finish (shortTransaction d (clearFrame d.v) s) :=
  requireConfigured_some hd _

theorem exec_clear (hd : s.display = some d) :
    exec .clear s = finish (shortTransaction d.clearBuffer (clearFrame d.v) (s.setDisplay d.clearBuffer)) :=
  requireConfigured_some hd _

/-- A two-byte frame's whole transaction, when its transfer succeeds (R190). -/
theorem finish_shortTransaction_ok (h : s.answerAt 0 = .ok) (frame : List Byte) :
    finish (shortTransaction d frame s) = .next { s.afterCalls 1 with
      display := some d.toggleV
      cs := false
      log := s.log ++ [.sel, .tx frame .ok, .desel]
      responses := s.responses ++ [⟨.ok, none⟩] } := by
  refine congrArg Host.Outcome.next ?_
  rw [shortTransaction_ok h]
  refine State.ext_fields rfl rfl rfl ?_ rfl rfl rfl rfl rfl rfl rfl
  simp

/-- A two-byte frame's transaction, when its transfer fails (R192). -/
theorem finish_shortTransaction_err {e : TransportError} {n : Nat} (h : s.answerAt 0 = .err e n) (frame : List Byte) :
    finish (shortTransaction d frame s) = .next { s.afterCalls 1 with
      cs := true
      log := s.log ++ [.sel, .tx frame (.err e)]
      delivered := s.delivered ++ [min n frame.length]
      responses := s.responses ++ [⟨.errTransport e, none⟩] } := by
  refine congrArg Host.Outcome.next ?_
  rw [shortTransaction_err h]
  refine State.ext_fields rfl rfl rfl ?_ rfl rfl rfl rfl rfl rfl rfl
  simp

end TwoByteFrames

/-- Settles O35: the two-byte transaction with the hold frame. -/
theorem holdSendsTheHoldFrame : Obligations.HoldSendsTheHoldFrame := by
  intro s d hd h
  rw [exec_hold hd, finish_shortTransaction_ok h, holdFrame_eq]
  rfl

/-- Settles O36: the aborted two-byte transaction with the hold frame. -/
theorem holdAbortKeepsPolarity : Obligations.HoldAbortKeepsPolarity := by
  intro s d e n hd h
  rw [exec_hold hd, finish_shortTransaction_err h, holdFrame_eq]
  rfl

/-- Settles O37: the two-byte transaction with the clear frame. -/
theorem clearDisplaySendsTheClearFrame : Obligations.ClearDisplaySendsTheClearFrame := by
  intro s d hd h
  rw [exec_clearDisplay hd, finish_shortTransaction_ok h, clearFrame_eq]
  rfl

/-- Settles O38: the aborted two-byte transaction with the clear frame. -/
theorem clearDisplayAbortKeepsPolarity : Obligations.ClearDisplayAbortKeepsPolarity := by
  intro s d e n hd h
  rw [exec_clearDisplay hd, finish_shortTransaction_err h, clearFrame_eq]
  rfl

/-- Settles O40: the two-byte transaction from the whitened display. -/
theorem clearWhitensAndSendsTheClearFrame : Obligations.ClearWhitensAndSendsTheClearFrame := by
  intro s d hd h
  refine ⟨d.clearBuffer.toggleV, ?_, clearBuffer_w d, clearBuffer_h d, by simp, by simp [Display.diff], fun _ => rfl⟩
  rw [exec_clear hd, finish_shortTransaction_ok (s := s.setDisplay d.clearBuffer) h, clearFrame_eq]
  rfl

/-- Settles O39: CLEAR's transaction begins where CLEAR_BUFFER ended, but for the response; either answer of the transport. -/
theorem clearIsBufferThenDisplay : Obligations.ClearIsBufferThenDisplay := by
  intro s d hd
  have hdisplay : (respond .ok none (s.setDisplay d.clearBuffer)).display = some d.clearBuffer := rfl
  rw [exec_clear hd, ← clearBuffer_v d]
  cases h : (respond .ok none (s.setDisplay d.clearBuffer)).answerAt 0 with
  | ok =>
    have hu := (exec_clearDisplay hdisplay).trans (finish_shortTransaction_ok h _)
    exact ⟨_, _, ⟨.ok, none⟩, exec_clearBuffer hd, hu, rfl, rfl,
      finish_shortTransaction_ok (s := s.setDisplay d.clearBuffer) h _⟩
  | err e n =>
    have hu := (exec_clearDisplay hdisplay).trans (finish_shortTransaction_err h _)
    exact ⟨_, _, ⟨.errTransport e, none⟩, exec_clearBuffer hd, hu, rfl, rfl,
      finish_shortTransaction_err (s := s.setDisplay d.clearBuffer) h _⟩

/-! ### RENDER -/

section Render
variable {s : State} {d : Display}

/-- The hold path of RENDER (R195). -/
theorem exec_render_hold (hd : s.display = some d) (h : d.nothingDirty = true) : exec .render s = exec .hold s := by
  rw [exec_hold hd]
  exact (requireConfigured_some hd _).trans (by rw [if_pos h]; rfl)

/-- The full path of RENDER (R195). -/
theorem exec_render_full (hd : s.display = some d) (hany : ∀ t, d.tracker = some t → t.testAny = true) :
    exec .render s = finish (fullRender d s) := by
  have hdirty : ¬ d.nothingDirty = true := Bool.eq_false_iff.mp (nothingDirty_eq_false.mpr hany)
  exact (requireConfigured_some hd _).trans (by rw [if_neg hdirty])

/-- The full path's whole transaction (R195). -/
theorem finish_fullRender_ok (h : ∀ k, k < d.renderCalls.length → s.answerAt k = .ok) :
    finish (fullRender d s) = .next { s.afterCalls d.renderCalls.length with
      display := some d.toggleV.clearTracker
      cs := false
      log := s.log ++ [.sel] ++ okEvents d.renderCalls ++ [.desel]
      responses := s.responses ++ [⟨.ok, none⟩] } := by
  rw [fullRender_eq, runCalls_ok (s := (select s).setDisplay d.toggleV) h]
  rfl

/-- The full path's transaction cut short (R192, R196). -/
theorem finish_fullRender_err {k : Nat} {bs : List Byte} {e : TransportError} {n : Nat} (hk : d.renderCalls[k]? = some bs)
    (hok : ∀ j, j < k → s.answerAt j = .ok) (herr : s.answerAt k = .err e n) :
    finish (fullRender d s) = .next { s.afterCalls (k + 1) with
      display := some d.toggleV
      cs := true
      log := s.log ++ [.sel] ++ okEvents (d.renderCalls.take k) ++ [.tx bs (.err e)]
      delivered := s.delivered ++ [min n bs.length]
      responses := s.responses ++ [⟨.errTransport e, none⟩] } := by
  rw [fullRender_eq, runCalls_err (s := (select s).setDisplay d.toggleV) hk hok herr]
  rfl

end Render

/-- Settles O29: the full path's whole transaction. -/
theorem renderSendsTheSelectedRows : Obligations.RenderSendsTheSelectedRows := by
  intro s d hd hany h
  rw [exec_render_full hd hany, finish_fullRender_ok h]
  rfl

/-- Settles O30: the full path's transaction cut short at call `k`. -/
theorem renderAbortsAtTheFirstError : Obligations.RenderAbortsAtTheFirstError := by
  intro s d k bs e n hd hany hk hok herr
  rw [exec_render_full hd hany, finish_fullRender_err hk hok herr]
  rfl

/-- Settles O31: with nothing dirty RENDER takes the hold path. -/
theorem renderWithNothingDirtyIsHold : Obligations.RenderWithNothingDirtyIsHold := by
  intro s d t hd htr hany
  exact exec_render_hold hd (by simp [Display.nothingDirty, htr, hany])

/-! ### RENDER as its wire units -/

theorem sent_sent (s : State) (a b : List (List Byte)) : (s.sent a).sent b = s.sent (a ++ b) := by
  have hcalls := afterCalls_add s a.length b.length
  rw [← List.length_append] at hcalls
  have hanswers := congrArg State.answers hcalls
  have hdraws := congrArg State.draws hcalls
  refine State.ext_fields rfl rfl rfl ?_ rfl rfl rfl hanswers hdraws rfl rfl
  simp [okEvents]

theorem execAll_cons {i : Instr} {s t : State} (hfault : s.fault = none) (h : exec i s = .next t) (is : List Instr) :
    execAll (i :: is) s = execAll is t := by
  simp only [execAll, hfault, h]

/-- The write-line unit of row `y` (R86). -/
def lineUnit (v : Bool) (y : Nat) : Instr :=
  .wireWriteLine (BitVec.ofNat 5 ((y + 1) / 256)) v (headerByte1 (y + 1))

theorem encode_lineUnit (v : Bool) {y : Nat} (hy : y + 1 ≤ Config.maxHeight) :
    encode (lineUnit v y) = .unit .opensWindow (headerByte0 (renderCmd v) (y + 1)) (headerByte1 (y + 1)) := by
  rw [headerByte0_eq_unitByte0 v hy]; rfl

/-- A row's unit makes the row's two calls (R195). -/
theorem exec_lineUnit {s : State} {d : Display} (hd : s.display = some d) (v : Bool) {y : Nat} (hy : y < d.h)
    (hmax : y + 1 ≤ Config.maxHeight) :
    exec (lineUnit v y) s = .next (runCalls [headerOf v y, d.rowBytes y] s).2 := by
  rw [lineUnit, exec_wireWriteLine hd (rowIndexOf_header hmax) hy, ← headerByte0_eq_unitByte0 v hmax]
  rfl

/-- The rows' units and the trailer's, run one after another with every transfer succeeding, make their calls. -/
theorem execAll_lineUnits {s : State} {d : Display} {ys : List Nat} (v : Bool) (hfault : s.fault = none)
    (hd : s.display = some d) (hys : ∀ y ∈ ys, y < d.h) (hmax : d.h ≤ Config.maxHeight)
    (hok : ∀ k, k < ((ys.flatMap fun y => [headerOf v y, d.rowBytes y]) ++ [trailer]).length → s.answerAt k = .ok) :
    execAll (ys.map (lineUnit v) ++ [.wireTrailer]) s =
      .next (s.sent ((ys.flatMap fun y => [headerOf v y, d.rowBytes y]) ++ [trailer])) := by
  induction ys generalizing s with
  | nil =>
    simp only [List.map_nil, List.nil_append, List.flatMap_nil, execAll, hfault, exec_wireTrailer hd]
    rw [runCalls_ok (calls := [trailer]) hok]
  | cons y ys ih =>
    rw [List.flatMap_cons, List.append_assoc] at hok ⊢
    have hline : exec (lineUnit v y) s = .next (s.sent [headerOf v y, d.rowBytes y]) := by
      have hy := hys y (by simp)
      rw [exec_lineUnit hd v hy (by omega), runCalls_ok fun k hk => hok k (by simp at hk ⊢; omega)]
    have hrest := ih (s := s.sent [headerOf v y, d.rowBytes y]) hfault hd (fun z hz => hys z (by simp [hz])) fun k hk => by
      rw [answerAt_sent]
      exact hok _ (by simp at hk ⊢; omega)
    rw [List.map_cons, List.cons_append, execAll_cons hfault hline, hrest, sent_sent]

/-- Settles O34: the units of the selected rows are the calls of `renderCalls`. -/
theorem renderRunsItsWireUnits : Obligations.RenderRunsItsWireUnits := by
  intro s d hfault hd hinv hany hok
  have hmax := hinv.height.2
  have inside : ∀ y ∈ d.selectedRows, y < d.h := fun y hy => (mem_selectedRows.mp hy).1
  refine ⟨d.selectedRows.map (lineUnit d.v), ((select s).setDisplay d.toggleV).sent d.renderCalls, ?_,
    execAll_lineUnits (d := d.toggleV) d.v hfault rfl inside hmax hok, ?_⟩
  · rw [List.map_map]
    exact List.map_congr_left fun y hy => encode_lineUnit d.v (by have := inside y hy; omega)
  · rw [exec_render_full hd hany, fullRender_eq, runCalls_ok (s := (select s).setDisplay d.toggleV) hok]
    rfl

end Sys2Proof.Machine
end

