-- ==== Sys2Proof/Proofs/Port.lean ====
section
/-! PROOFS. The port and the step (spec/60_exceptions.md R256 to R260, R266; spec/70_reset_and_hazards.md R282, R294). -/

namespace Sys2Proof.Machine

/-! ### What the step takes -/

section Step
variable {s : State}

/-- A host move is taken when no wire unit is on the bench. -/
theorem accept_move {m : Move} {rest : List Move} (hfault : s.fault = none) (hbench : s.bench = none)
    (hpending : s.pending = m :: rest) : accept s = acceptMove m { s with pending := rest } := by
  simp only [accept, hfault, hbench, hpending]

theorem accept_unit {u : WireUnit} (hfault : s.fault = none) (hbench : s.bench = some u) :
    accept s = acceptUnit u { s with bench := none } := by
  simp only [accept, hfault, hbench]

/-- A request that does not overlap and decodes is run. -/
theorem step_request {r : BitVec 37} {rest : List Move} {i : Instr} (hfault : s.fault = none) (hbench : s.bench = none)
    (hpending : s.pending = .request r false :: rest) (hdecode : decode (.request r) = .ok i) :
    step s = exec i { s with pending := rest } := by
  simp [step, accept_move hfault hbench hpending, acceptMove, acceptRequest, hdecode]

/-- A wire unit that decodes is run (log 3). -/
theorem step_unit {u : WireUnit} {i : Instr} (hfault : s.fault = none) (hbench : s.bench = some u)
    (hdecode : decode (.unit u.place u.b0 u.b1) = .ok i) : step s = exec i { s with bench := none } := by
  simp [step, accept_unit hfault hbench, acceptUnit, hdecode]

end Step

/-- Settles O44: the check of the configuration comes first. -/
theorem unconfiguredOperationsFault : Obligations.UnconfiguredOperationsFault :=
  fun _ _ hi hd => exec_unconfigured hi hd

/-- Settles O45: the overlap is looked at before the OP, and the OP before the operation. -/
theorem portFaultPriority : Obligations.PortFaultPriority := by
  intro s rest hfault hbench
  refine ⟨fun r hpending => ?_, fun what hpending => ?_, fun r hpending hop => ?_⟩
  all_goals rw [step, accept_move hfault hbench hpending]
  · rfl
  · rfl
  · have hdecode : decode (.request r) = .error (.unassignedOp (recordOp r)) := decodeRequest_unassigned hop
    simp only [acceptMove, acceptRequest, hdecode]
    rfl

/-- Settles O46: the port looks at `FAULT` first. -/
theorem faultedStateTakesNoStep : Obligations.FaultedStateTakesNoStep := by
  intro s k hfault
  simp only [step, accept, hfault]

/-- Settles O47: a request and a wire unit, from the host's moves and from `withCode`. -/
theorem stepRunsTheDecodedInstruction : Obligations.StepRunsTheDecodedInstruction := by
  intro s i hfault
  refine ⟨fun r rest hbench hpending => step_request hfault hbench hpending,
    fun place b0 b1 hbench => step_unit hfault hbench, fun c hdecode => ?_⟩
  cases c with
  | request r => exact step_request (s := s.withCode (.request r)) hfault rfl rfl hdecode
  | unit place b0 b1 => exact step_unit (s := s.withCode (.unit place b0 b1)) hfault rfl hdecode

/-! ### The host's moves -/

/-- The fields that are the host's own: no instruction touches them. -/
def SameMoves (s t : State) : Prop := t.bench = s.bench ∧ t.pending = s.pending

theorem SentTransaction.sameMoves {d : Display} {calls : List (List Byte)} {s t : State} (h : SentTransaction d calls s t) :
    SameMoves s t := by subst h; exact ⟨rfl, rfl⟩

theorem AbortedTransaction.sameMoves {d : Display} {pre : List (List Byte)} {bs : List Byte} {s t : State}
    (h : AbortedTransaction d pre bs s t) : SameMoves s t := by obtain ⟨e, n, rfl⟩ := h; exact ⟨rfl, rfl⟩

theorem runCalls_sameMoves (calls : List (List Byte)) (s : State) : SameMoves s (runCalls calls s).2 := by
  rcases runCalls_cases calls s with ⟨-, h⟩ | ⟨pre, bs, e, n, -, -, h⟩ <;> rw [h] <;> exact ⟨rfl, rfl⟩

theorem exec_sameMoves {i : Instr} {s t : State} (h : exec i s = .next t) : SameMoves s t := by
  cases exec_effect h with
  | unconfigured | configured | configError | pixelSet | answered | bufferCleared => exact ⟨rfl, rfl⟩
  | held _ _ _ _ ht => exact ht.elim (·.sameMoves) (·.sameMoves)
  | rendered _ _ _ _ _ ht => exact ht.elim (·.sameMoves) fun ⟨_, _, _, ht⟩ => ht.sameMoves
  | displayCleared _ _ _ _ ht => exact ht.elim (·.sameMoves) (·.sameMoves)
  | cleared _ _ _ _ ht => exact ht.elim (·.sameMoves) (·.sameMoves)
  | unitSent _ calls => exact runCalls_sameMoves calls s

/-- Settles O48: every step takes at most the first pending move, and nothing puts a unit on the bench. -/
theorem hostMovesAndWaiting : Obligations.HostMovesAndWaiting := by
  intro s hfault hbench
  refine ⟨fun rest hpending => ?_, fun hpending => ?_, fun t h => ?_⟩
  · rw [step, accept_move hfault hbench hpending]
    rfl
  · simp only [step, accept, hfault, hbench, hpending]
  · obtain ⟨-, ⟨u, i, hu, -⟩ | ⟨-, ⟨-, rfl⟩ | ⟨m, rest, hpending, ⟨k, rfl⟩ | rfl | ⟨r, i, -, -, h⟩⟩⟩⟩ := step_cases h
    · rw [hbench] at hu; cases hu
    · exact ⟨hbench, [], rfl⟩
    · exact ⟨hbench, [m], hpending⟩
    · exact ⟨hbench, [m], hpending⟩
    · obtain ⟨hbench', hpending'⟩ := exec_sameMoves h
      exact ⟨hbench'.trans hbench, [m], by rw [hpending', hpending]; rfl⟩

end Sys2Proof.Machine
end

