-- ==== Sys2Proof/Proofs/Panel.lean ====
section
/-! PROOFS. What the panel receives, window by window (spec/10_state.md R31, spec/60_exceptions.md R262, R264). -/

namespace Sys2Proof.Machine

/-- Reading a log in two parts: the first part closes some windows and leaves one open exactly while select is asserted, and
the second part goes on from there. -/
theorem receivedWindows_split (first : List Event) (ds : List Nat) (hds : ds.length = (failedCalls first).length)
    (start : Option (List Byte)) :
    ∃ (closed : List (List Byte)) (left : Option (List Byte)), left.isSome = first.foldl csAfter start.isSome ∧
      ∀ second ds', receivedWindows (first ++ second) (ds ++ ds') start = closed ++ receivedWindows second ds' left := by
  induction first generalizing ds start with
  | nil =>
    obtain rfl : ds = [] := List.eq_nil_of_length_eq_zero hds
    exact ⟨[], start, rfl, fun _ _ => rfl⟩
  | cons e first ih =>
    cases e with
    | sel => exact ih ds hds (some (start.getD []))
    | desel =>
      obtain ⟨closed, left, hleft, hsplit⟩ := ih ds hds none
      exact ⟨start.toList ++ closed, left, hleft, fun second ds' => by
        rw [List.append_assoc, ← hsplit]; rfl⟩
    | hdesel =>
      obtain ⟨closed, left, hleft, hsplit⟩ := ih ds hds none
      exact ⟨start.toList ++ closed, left, hleft, fun second ds' => by
        rw [List.append_assoc, ← hsplit]; rfl⟩
    | tx bs r =>
      cases r with
      | ok =>
        obtain ⟨closed, left, hleft, hsplit⟩ := ih ds hds (start.map (· ++ bs))
        exact ⟨closed, left, by rw [hleft, Option.isSome_map]; rfl, hsplit⟩
      | err e =>
        obtain ⟨n, ds, rfl⟩ := List.exists_cons_of_length_eq_add_one hds
        obtain ⟨closed, left, hleft, hsplit⟩ := ih ds (Nat.succ.inj hds) (start.map (· ++ bs.take n))
        exact ⟨closed, left, by rw [hleft, Option.isSome_map]; rfl, hsplit⟩

/-- What a state that meets the invariant has sent: closed windows and, while select is asserted, the open one; and how later
events go on from there (R264, R290). -/
theorem panelWindows_split {s : State} (hs : s.Inv) : ∃ (closed : List (List Byte)) (left : Option (List Byte)),
    left.isSome = s.cs ∧ s.panelWindows = closed ++ left.toList ∧
    ∀ {t : State} {es : List Event} {ns : List Nat}, t.log = s.log ++ es → t.delivered = s.delivered ++ ns →
      t.panelWindows = closed ++ receivedWindows es ns left := by
  obtain ⟨closed, left, hleft, hsplit⟩ := receivedWindows_split s.log s.delivered hs.delivered.length_eq.symm none
  refine ⟨closed, left, hleft.trans hs.select.symm, ?_, fun {t es ns} hlog hdelivered => ?_⟩
  · have := hsplit [] []
    rwa [List.append_nil, List.append_nil] at this
  · rw [State.panelWindows, hlog, hdelivered, hsplit]

/-- What a HOLD appends to the log, and to the delivered counts (R192, R203). -/
theorem exec_hold_log {s t : State} {d : Display} (hd : s.display = some d) (h : exec .hold s = .next t) :
    (s.answerAt 0 = .ok → t.log = s.log ++ [.sel, .tx (holdFrame d.v) .ok, .desel] ∧ t.delivered = s.delivered ++ []) ∧
    (∀ e n, s.answerAt 0 = .err e n → t.log = s.log ++ [.sel, .tx (holdFrame d.v) (.err e)] ∧
      t.delivered = s.delivered ++ [min n (holdFrame d.v).length]) := by
  rw [exec_hold hd] at h
  refine ⟨fun hok => ?_, fun e n herr => ?_⟩
  · rw [finish_shortTransaction_ok hok] at h
    cases h
    exact ⟨rfl, (List.append_nil _).symm⟩
  · rw [finish_shortTransaction_err herr] at h
    cases h
    exact ⟨rfl, rfl⟩

/-- A HOLD's bytes end the window that was open, or a new one. -/
theorem panelWindows_hold {s t : State} {d : Display} {got : List Byte} (hs : s.Inv) (hd : s.display = some d)
    (h : exec .hold s = .next t) (hgot : s.answerAt 0 = .ok ∧ got = holdFrame d.v ∨
      ∃ e n, s.answerAt 0 = .err e n ∧ got = (holdFrame d.v).take n) :
    ∃ (closed : List (List Byte)) (left : Option (List Byte)), left.isSome = s.cs ∧
      s.panelWindows = closed ++ left.toList ∧ t.panelWindows = closed ++ [left.getD [] ++ got] := by
  obtain ⟨closed, left, hleft, hbefore, hafter⟩ := panelWindows_split hs
  obtain ⟨hok, herr⟩ := exec_hold_log hd h
  refine ⟨closed, left, hleft, hbefore, ?_⟩
  rcases hgot with ⟨ha, rfl⟩ | ⟨e, n, ha, rfl⟩
  · obtain ⟨hlog, hdelivered⟩ := hok ha
    rw [hafter hlog hdelivered]
    rfl
  · obtain ⟨hlog, hdelivered⟩ := herr e n ha
    rw [hafter hlog hdelivered, List.take_eq_take_min]
    rfl

/-- Settles O60: with select deasserted no window is open, with select asserted one is. -/
theorem panelReceivesTheHoldFrame : Obligations.PanelReceivesTheHoldFrame := by
  intro s t d got hs hd h hgot
  obtain ⟨closed, left, hleft, hbefore, hafter⟩ := panelWindows_hold hs hd h hgot
  rw [hbefore, hafter]
  refine ⟨fun hcs => ?_, fun hcs => ?_⟩
  · obtain rfl : left = none := by rw [hcs] at hleft; simpa using hleft
    simp
  · obtain ⟨window, rfl⟩ := Option.isSome_iff_exists.mp (hleft.trans hcs)
    exact ⟨closed, window, rfl, rfl⟩

end Sys2Proof.Machine
end

