-- ==== Sys2Proof/Proofs/Polarity.lean ====
section
/-! PROOFS. The polarity bits on the wire alternate (spec/44_vcom_fsm.md R232 to R234): each transaction carries V and inverts
it, every other request keeps both. -/

namespace Sys2Proof.Machine

/-! ### The polarity a transaction carries -/

/-- The first byte of the first call is a unit of polarity `v` (R233). -/
def CarriesPolarity (v : Bool) (calls : List (List Byte)) : Prop :=
  ∃ b0 bs rest, calls = (b0 :: bs) :: rest ∧ vcomOf b0 = v

theorem holdFrame_carries (v : Bool) : CarriesPolarity v [holdFrame v] := ⟨_, _, _, rfl, by cases v <;> rfl⟩

theorem clearFrame_carries (v : Bool) : CarriesPolarity v [clearFrame v] := ⟨_, _, _, rfl, by cases v <;> rfl⟩

theorem vcomOf_rowHeader (v : Bool) {r : Nat} (hr : r ≤ Config.maxHeight) : vcomOf (headerByte0 (renderCmd v) r) = v := by
  rw [headerByte0_eq_unitByte0 v hr]
  obtain ⟨-, hvcom, -, -⟩ := unitByte0_fields (BitVec.ofNat 5 (r / 256)) false v true
  exact hvcom

/-- A full-path RENDER begins with the header of its first selected row (R195). -/
theorem renderCalls_carries {d : Display} {maxWidth : Nat} (hd : d.Inv maxWidth)
    (hany : ∀ t, d.tracker = some t → t.testAny = true) : CarriesPolarity d.v d.renderCalls := by
  obtain ⟨y, ys, hrows⟩ := List.exists_cons_of_ne_nil (selectedRows_ne_nil hd hany)
  have hy : y < d.h := (mem_selectedRows.mp (by rw [hrows]; simp)).1
  have hmax := hd.height.2
  exact ⟨_, _, _, by rw [Display.renderCalls, hrows]; rfl, vcomOf_rowHeader d.v (by omega)⟩

/-- A transaction that runs on a configured block and completes carries V and inverts it; or it is aborted (R203, R232). -/
theorem exec_transaction {i : Instr} {s t : State} {d : Display} (hi : isTransaction i = true) (hs : s.Inv)
    (hd : s.display = some d) (h : exec i s = .next t) :
    (∃ d' calls, SentTransaction d' calls s t ∧ CarriesPolarity d.v calls ∧ d'.v = !d.v) ∨
    ∃ d' pre bs, AbortedTransaction d' pre bs s t := by
  cases i with
  | hold =>
    rw [exec_hold hd] at h
    exact (shortTransaction_cases h hd).imp (fun ht => ⟨_, _, ht, holdFrame_carries d.v, rfl⟩) fun ht => ⟨_, _, _, ht⟩
  | clearDisplay =>
    rw [exec_clearDisplay hd] at h
    exact (shortTransaction_cases h hd).imp (fun ht => ⟨_, _, ht, clearFrame_carries d.v, rfl⟩) fun ht => ⟨_, _, _, ht⟩
  | clear =>
    rw [exec_clear hd] at h
    exact (shortTransaction_cases h rfl).imp (fun ht => ⟨_, _, ht, clearFrame_carries d.v, by simp⟩) fun ht => ⟨_, _, _, ht⟩
  | render =>
    cases hdirty : d.nothingDirty with
    | true =>
      rw [exec_render_hold hd hdirty, exec_hold hd] at h
      exact (shortTransaction_cases h hd).imp (fun ht => ⟨_, _, ht, holdFrame_carries d.v, rfl⟩) fun ht => ⟨_, _, _, ht⟩
    | false =>
      have hany := nothingDirty_eq_false.mp hdirty
      rw [exec_render_full hd hany] at h
      exact (fullRender_cases h).imp (fun ht => ⟨_, _, ht, renderCalls_carries (hs.display d hd) hany, rfl⟩)
        fun ⟨_, _, _, ht⟩ => ⟨_, _, _, ht⟩
  | _ => cases hi

/-! ### One request -/

/-- Successful transfers carry no polarity but after a `SEL` (R233). -/
theorem carriedPolarities_okEvents (calls : List (List Byte)) (es : List Event) :
    carriedPolarities (okEvents calls ++ es) = carriedPolarities es := by
  induction calls with
  | nil => rfl
  | cons bs calls ih => simpa [okEvents, carriedPolarities] using ih

/-- What one request without a failure does: the polarities carried, and the state's polarity after it. -/
def PolarityStep (transaction v : Bool) (s t : State) : Prop :=
  t.fault = s.fault ∧ (∃ d, t.display = some d ∧ d.v = (transaction ^^ v)) ∧
    ∃ es, t.log = s.log ++ es ∧
      ∀ later, carriedPolarities (es ++ later) = (if transaction then [v] else []) ++ carriedPolarities later

theorem SentTransaction.polarityStep {d : Display} {calls : List (List Byte)} {s t : State} {v : Bool}
    (h : SentTransaction d calls s t) (hcalls : CarriesPolarity v calls) (hv : d.v = !v) : PolarityStep true v s t := by
  obtain ⟨b0, bs, rest, rfl, hb0⟩ := hcalls
  refine ⟨by subst h; rfl, ⟨d, h.display, by rw [hv, Bool.true_xor]⟩, _, h.log, fun later => ?_⟩
  have hevents : [.sel] ++ okEvents ((b0 :: bs) :: rest) ++ [.desel] ++ later =
      .sel :: .tx (b0 :: bs) .ok :: (okEvents rest ++ .desel :: later) := by simp [okEvents]
  rw [hevents, carriedPolarities, carriedPolarities_okEvents, hb0]
  rfl

/-- An aborted transaction logs a failed transfer. -/
theorem AbortedTransaction.failedCalls_ne {d : Display} {pre : List (List Byte)} {bs : List Byte} {s t : State}
    (h : AbortedTransaction d pre bs s t) : failedCalls t.log ≠ failedCalls s.log := by
  obtain ⟨e, hlog⟩ := h.log
  simp [hlog, failedCalls_append, failedCalls]

/-- Every request but CONFIGURE, with no transfer failing. -/
theorem exec_polarityStep {i : Instr} {s t : State} {d : Display} (hreq : isRequest i = true)
    (hi : ∀ w h f, i ≠ .configure w h f) (hs : s.Inv) (hd : s.display = some d) (h : exec i s = .next t)
    (hfailed : failedCalls t.log = failedCalls s.log) : PolarityStep (isTransaction i) d.v s t := by
  cases htr : isTransaction i with
  | true =>
    rcases exec_transaction htr hs hd h with ⟨d', calls, ht, hcalls, hv⟩ | ⟨d', pre, bs, ht⟩
    · exact ht.polarityStep hcalls hv
    · exact absurd hfailed ht.failedCalls_ne
  | false =>
    obtain ⟨-, -, hfault, -⟩ := exec_request_answers hreq (.inr (by simp [hd])) h
    obtain ⟨hlog, -, -, -, -, -⟩ := onlyTransactionsTouchTheBus i s t hreq htr h
    obtain ⟨d', hd', hchange⟩ := exec_display hi h hd
    exact ⟨hfault, ⟨d', hd', by rw [hchange.polarity htr, Bool.false_xor]⟩, [], by rw [hlog, List.append_nil], fun _ => rfl⟩

/-! ### A run of requests -/

theorem execAll_cons_next {i : Instr} {is : List Instr} {s t : State} (hfault : s.fault = none)
    (h : execAll (i :: is) s = .next t) : ∃ u, exec i s = .next u ∧ execAll is u = .next t := by
  simp only [execAll, hfault] at h
  cases hu : exec i s with
  | next u => rw [hu] at h; exact ⟨u, rfl, h⟩
  | fault k => rw [hu] at h; cases h
  | refused r => rw [hu] at h; cases h

theorem execAll_log {is : List Instr} {s t : State} (h : execAll is s = .next t) : ∃ es, t.log = s.log ++ es := by
  induction is generalizing s with
  | nil => cases h; exact ⟨[], (List.append_nil _).symm⟩
  | cons i is ih =>
    cases hfault : s.fault with
    | some k => simp only [execAll, hfault] at h; cases h
    | none =>
      obtain ⟨u, hu, hrest⟩ := execAll_cons_next hfault h
      obtain ⟨es, hes⟩ := exec_log hu
      obtain ⟨es', hes'⟩ := ih hrest
      exact ⟨es ++ es', by rw [hes', hes, List.append_assoc]⟩

/-- No transfer fails over two parts of a run exactly when none fails in either. -/
theorem failedCalls_split {l m n : List Event} (hm : ∃ es, m = l ++ es) (hn : ∃ es, n = m ++ es)
    (h : failedCalls n = failedCalls l) : failedCalls m = failedCalls l ∧ failedCalls n = failedCalls m := by
  obtain ⟨es, rfl⟩ := hm
  obtain ⟨es', rfl⟩ := hn
  rw [failedCalls_append, failedCalls_append, List.append_assoc, List.append_right_eq_self, List.append_eq_nil_iff] at h
  obtain ⟨hes, hes'⟩ := h
  simp [failedCalls_append, hes, hes']

/-- The `k`-th polarity of an alternation that starts with `v`. -/
def alternation (v : Bool) (k : Nat) : Bool := if k % 2 = 0 then v else !v

theorem alternation_succ (v : Bool) (k : Nat) : alternation v (k + 1) = alternation (!v) k := by
  unfold alternation
  rcases Nat.mod_two_eq_zero_or_one k with h | h
  · rw [if_neg (by omega), if_pos h]
  · rw [if_pos (by omega), if_neg (by omega), Bool.not_not]

theorem map_alternation_succ (v : Bool) (n : Nat) :
    (List.range (n + 1)).map (alternation v) = v :: (List.range n).map (alternation (!v)) := by
  rw [List.range_succ_eq_map, List.map_cons, List.map_map]
  exact congrArg _ (List.map_congr_left fun k _ => alternation_succ v k)

/-- Settles O59: induction over the requests; each transaction takes the first polarity of the alternation. -/
theorem polarityAlternates : Obligations.PolarityAlternates := by
  intro is s t d hs hfault hd hreq h hfailed
  change ∃ es, t.log = s.log ++ es ∧
    carriedPolarities es = (List.range (is.countP isTransaction)).map (alternation d.v) ∧
    t.display.map Display.v = some (alternation d.v (is.countP isTransaction))
  induction is generalizing s d with
  | nil =>
    cases h
    exact ⟨[], (List.append_nil _).symm, rfl, by rw [hd]; rfl⟩
  | cons i is ih =>
    obtain ⟨u, hu, hrest⟩ := execAll_cons_next hfault h
    obtain ⟨hi, hrequests⟩ := List.forall_mem_cons.mp hreq
    obtain ⟨hfirst, hlater⟩ := failedCalls_split (exec_log hu) (execAll_log hrest) hfailed
    obtain ⟨hfault', ⟨d', hd', hv⟩, es, hes, hcarried⟩ := exec_polarityStep hi.1 hi.2 hs hd hu hfirst
    obtain ⟨es', hes', hcarried', hv'⟩ := ih u d' (exec_inv hs hu) (hfault'.trans hfault) hd' hrequests hrest hlater
    refine ⟨es ++ es', by rw [hes', hes, List.append_assoc], ?_⟩
    rw [hcarried, hcarried', hv', hv]
    cases htr : isTransaction i with
    | true =>
      rw [List.countP_cons_of_pos htr, map_alternation_succ, alternation_succ, Bool.true_xor]
      exact ⟨rfl, rfl⟩
    | false =>
      rw [List.countP_cons_of_neg (by simp [htr]), Bool.false_xor]
      exact ⟨rfl, rfl⟩

end Sys2Proof.Machine
end
